-- ==== Sys2Proof/Word.lean ====
section
/-! DEFINITION. The two variants of the core, the widths each fixes (Table P of spec/00_scope.md, rule R5), and the
types of the values the core holds and moves: bytes, words, the eight-word chaining value, blocks, port beats. -/

namespace Sys2Proof

/-- R1: the two structurally identical variants of the core. A variant is fixed when an instance is built. -/
inductive Variant where
  | core32
  | core64
  deriving DecidableEq, Repr

/-- Table P, `W`: word width in bits. -/
def Variant.wordBits : Variant → Nat
  | .core32 => 32
  | .core64 => 64

/-- Table P, `WB`: bytes per word. -/
def Variant.wordBytes : Variant → Nat
  | .core32 => 4
  | .core64 => 8

/-- Table P, `B`: block size in bytes. -/
def Variant.blockBytes : Variant → Nat
  | .core32 => 64
  | .core64 => 128

/-- Table P, `CB`: width of the block counter and of the bit length. -/
def Variant.counterBits : Variant → Nat
  | .core32 => 64
  | .core64 => 128

/-- A byte (00_scope.md section 6). -/
abbrev Byte := BitVec 8

/-- A word: an unsigned integer of `W` bits. -/
abbrev Word (v : Variant) := BitVec v.wordBits

/-- R13: the block counter's type, one unsigned number of `CB` bits. -/
abbrev Count (v : Variant) := BitVec v.counterBits

/-- R50: a command word, one beat of the CMD port. -/
abbrev CmdWord := BitVec 32

/-- R52: the operand field of a command word. -/
abbrev Arg := BitVec 24

/-- R33: one beat of the DIN port, `DIN[8B-1:0]`. -/
abbrev DinBeat (v : Variant) := BitVec (8 * v.blockBytes)

/-- R10: the eight chaining words `H[0]` to `H[7]`. No command addresses one alone (R11). -/
structure Hash (v : Variant) where
  h0 : Word v
  h1 : Word v
  h2 : Word v
  h3 : Word v
  h4 : Word v
  h5 : Word v
  h6 : Word v
  h7 : Word v
  deriving DecidableEq, Repr, Inhabited

/-- The chaining words in index order. -/
def Hash.words {v : Variant} (s : Hash v) : List (Word v) :=
  [s.h0, s.h1, s.h2, s.h3, s.h4, s.h5, s.h6, s.h7]

/-- R33: a block is a byte sequence of exactly `B` bytes, so that a block of another length cannot be written. -/
abbrev Block (v : Variant) := { bytes : List Byte // bytes.length = v.blockBytes }

end Sys2Proof
end

