-- ==== Sys2Proof/Syntax.lean ====
section
/-! DEFINITION. The four commands (Table O of spec/30_encoding.md, rules R51, R52), the six aliases of INIT (rule R57)
and the six algorithms (Table V of spec/00_scope.md, rule R2). -/

namespace Sys2Proof

/-- A decoded command. Every operand is the whole 24-bit `arg` field: INIT's value is checked by INIT itself (R70),
FINALIZE's fill count and SNAPSHOT's zero by the commands (R133, `CV4` and `CV5`). -/
inductive Instr where
  /-- INIT (R70): `outputLen` is `output_len_bytes`. -/
  | init (outputLen : Arg)
  /-- UPDATE (R80): `n` is the number of blocks that follow on DIN. -/
  | update (n : Arg)
  /-- FINALIZE (R90): `pos` is the number of message bytes in the partial block. -/
  | finalize (pos : Arg)
  /-- SNAPSHOT (R110): `arg` must be 0. -/
  | snapshot (arg : Arg)
  deriving DecidableEq, Repr

/-- The operand field of a command. -/
def Instr.arg : Instr → Arg
  | .init a => a
  | .update a => a
  | .finalize a => a
  | .snapshot a => a

/-- The mnemonic of a command (Table O). -/
def Instr.mnemonic : Instr → String
  | .init _ => "INIT"
  | .update _ => "UPDATE"
  | .finalize _ => "FINALIZE"
  | .snapshot _ => "SNAPSHOT"

/-- Table V: the six algorithms. -/
inductive Algorithm where
  | sha224
  | sha256
  | sha512_224
  | sha512_256
  | sha384
  | sha512
  deriving DecidableEq, Repr

/-- Table V: the variant that computes an algorithm. -/
def Algorithm.variant : Algorithm → Variant
  | .sha224 => .core32
  | .sha256 => .core32
  | .sha512_224 => .core64
  | .sha512_256 => .core64
  | .sha384 => .core64
  | .sha512 => .core64

/-- Table V: the `output_len_bytes` that selects an algorithm. -/
def Algorithm.outputLen : Algorithm → Arg
  | .sha224 => 28
  | .sha256 => 32
  | .sha512_224 => 28
  | .sha512_256 => 32
  | .sha384 => 48
  | .sha512 => 64

/-- R57: `INIT.SHA224`, `INIT.SHA256`, `INIT.SHA512_224`, `INIT.SHA512_256`, `INIT.SHA384` and `INIT.SHA512` are other
names of INIT with the algorithm's length. -/
def Instr.initFor (a : Algorithm) : Instr := .init a.outputLen

end Sys2Proof
end

