-- ==== Sys2Proof/WellFormed.lean ====
section
/-! DEFINITION. Which commands are well formed: the operand checks of rules R52, R90 and R110. -/

namespace Sys2Proof

/-- R52: INIT and UPDATE accept every operand; FINALIZE needs `pos < B` (else `CV4`); SNAPSHOT needs `arg = 0`
(else `CV5`). -/
def Instr.wellFormed (v : Variant) : Instr → Bool
  | .init _ => true
  | .update _ => true
  | .finalize pos => decide (pos.toNat < v.blockBytes)
  | .snapshot arg => decide (arg = 0)

end Sys2Proof
end

