-- ==== Sys2Proof/Decode.lean ====
section
/-! DEFINITION. The command word: its fields (Table F of spec/30_encoding.md, rule R50), the total decoder (rule R53), the
payload count a decoder knows from the word (rule R55), the encoder, the host's table-word entry point, and the textual
form of a command (rule R57). -/

namespace Sys2Proof

/-- R50: `CWD[31:28]`. -/
def opField (w : CmdWord) : BitVec 4 := w.extractLsb' 28 4

/-- R50: `CWD[27:24]`, reserved, must be zero. -/
def rsvField (w : CmdWord) : BitVec 4 := w.extractLsb' 24 4

/-- R50: `CWD[23:0]`. -/
def argField (w : CmdWord) : Arg := w.extractLsb' 0 24

/-- Table O: the operation codes. -/
def Instr.opcode : Instr → BitVec 4
  | .init _ => 0x1
  | .update _ => 0x2
  | .finalize _ => 0x3
  | .snapshot _ => 0x4

/-- R53: the two verdicts on a word that is no command. -/
inductive Reserved where
  /-- `CV1`: `op` is 0 or 5 to 15. -/
  | op
  /-- `CV2`: `rsv` is not zero. -/
  | bits
  deriving DecidableEq, Repr

/-- R53: total on 32-bit words. `CV2` is reported first where both verdicts apply (R136). -/
def decode (w : CmdWord) : Except Reserved Instr :=
  if rsvField w ≠ 0 then .error .bits
  else if opField w = 0x1 then .ok (.init (argField w))
  else if opField w = 0x2 then .ok (.update (argField w))
  else if opField w = 0x3 then .ok (.finalize (argField w))
  else if opField w = 0x4 then .ok (.snapshot (argField w))
  else .error .op

/-- R50, R51: `op`, then four zero bits, then `arg`, most significant first. -/
def encode (i : Instr) : CmdWord := i.opcode ++ (0 : BitVec 4) ++ i.arg

/-- R54: the DIN beats that follow the command word. -/
def Instr.payload : Instr → Nat
  | .init _ => 0
  | .update n => n.toNat
  | .finalize _ => 1
  | .snapshot _ => 0

/-- The command word whose low `nbits` bits are those of `w` and whose other bits are zero. -/
def tableWord (nbits w : Nat) : CmdWord := BitVec.ofNat 32 (w % 2 ^ nbits)

/-- The command the decoder reads from a word numbered as spec/opcode_table.json numbers it. A command is one 32-bit
beat of CMD (R32): there is no byte order to choose. -/
def decodeTableWord (nbits w : Nat) : Option Instr :=
  match decode (tableWord nbits w) with
  | .ok i => some i
  | .error _ => none

/-- One hexadecimal digit. -/
def hexDigit (n : Nat) : String := (["0", "1", "2", "3", "4", "5", "6", "7", "8", "9", "a", "b", "c", "d", "e", "f"]).getD n ""

/-- Payload bytes in hex, byte 0 first, two digits a byte. -/
def hexBytes : List Byte → String
  | [] => ""
  | b :: bs => hexDigit (b.toNat / 16) ++ hexDigit (b.toNat % 16) ++ hexBytes bs

/-- R57: the line of a command: its mnemonic, its operand in decimal, and the payload after a colon. DESIGN CHOICE (safe,
notes/assumptions/16.md): the spec gives `SNAPSHOT` without an operand and no line for a SNAPSHOT word with `arg ≠ 0`; here the
operand is not printed, so every such word has the line `SNAPSHOT` too. -/
def Instr.line (i : Instr) (payload : List Byte) : String :=
  let operand := match i with
    | .snapshot _ => ""
    | _ => " " ++ Nat.repr i.arg.toNat
  let data := if i.payload = 0 then "" else " : " ++ hexBytes payload
  i.mnemonic ++ operand ++ data

end Sys2Proof
end

