-- ==== Sys2Proof/Config.lean ====
section
/-! DEFINITION. What the spec leaves open: the two parameters of the core (rule R6: `Compress_W` and `IV_W`) and the values of
registers that the spec calls unspecified (rule R22) or undefined (rule R133). Each opaque constant has no body: no proof can know
its value. -/

namespace Sys2Proof

/-- R81 (D17, OPEN): the compression permutation of a variant. -/
opaque Config.compress (v : Variant) : Hash v → Block v → Hash v

/-- A chaining value that names an output length. -/
def Config.ivLabel (v : Variant) (len : Nat) : Hash v where
  h0 := BitVec.ofNat _ len
  h1 := 0
  h2 := 0
  h3 := 0
  h4 := 0
  h5 := 0
  h6 := 0
  h7 := 0

/-- R71 (D18, OPEN): the choice of the initial vectors of a variant. A one-to-one map, so that distinct lengths get distinct
vectors; every table of distinct vectors is that of some choice (law `ivChoice_covers`, notes/assumptions/5.md). -/
opaque Config.ivChoice (v : Variant) : Equiv.Perm (Hash v)

/-- R71: the initial vectors of a variant, constant and pairwise distinct (read only at the valid lengths). -/
def Config.iv (v : Variant) (len : Nat) : Hash v := Config.ivChoice v (Config.ivLabel v len)

/-- R22, R23: `H` right after the RESET a run begins with. FREE VALUE (notes/assumptions/3.md). -/
opaque Config.resetHash (v : Variant) : Hash v

/-- R22, R23: `BC` right after the RESET a run begins with. FREE VALUE (notes/assumptions/3.md). -/
opaque Config.resetCount (v : Variant) : Count v

/-- R22, R23: `OUTLEN` right after the RESET a run begins with. FREE VALUE (notes/assumptions/3.md). -/
opaque Config.resetOutlen (v : Variant) : BitVec 7

/-- R22: `H` after an event that leaves it unspecified. FREE VALUE: it may depend on how often that has happened and on
the registers before the event (notes/assumptions/4.md). -/
opaque Config.freeHash (v : Variant) (draw : Nat) (h : Hash v) (bc : Count v) (outlen : BitVec 7) : Hash v

/-- R22: `BC` after an event that leaves it unspecified. FREE VALUE, as `Config.freeHash`. -/
opaque Config.freeCount (v : Variant) (draw : Nat) (h : Hash v) (bc : Count v) (outlen : BitVec 7) : Count v

/-- R22: `OUTLEN` after an event that leaves it unspecified. FREE VALUE, as `Config.freeHash`. -/
opaque Config.freeOutlen (v : Variant) (draw : Nat) (h : Hash v) (bc : Count v) (outlen : BitVec 7) : BitVec 7

/-- R133: whether `PHASE` is `ACTIVE` after a contract violation. FREE VALUE, as `Config.freeHash`. -/
opaque Config.freeActive (v : Variant) (draw : Nat) (h : Hash v) (bc : Count v) (outlen : BitVec 7) : Bool

end Sys2Proof
end

