-- ==== Sys2Proof/Machine/Flags.lean ====
section
/-! DEFINITION. The core has no flags and no sticky status (spec/10_state.md, rule R19): the outcome of a command is its
response code, reported once (Table Q of spec/30_encoding.md, rule R56). -/

namespace Sys2Proof.Machine

/-- Table Q, OK. -/
def rspOk : BitVec 8 := 0x00

/-- Table Q, INVALID_OUTPUT_SIZE. -/
def rspInvalidOutputSize : BitVec 8 := 0x01

end Sys2Proof.Machine
end

