-- ==== Sys2Proof/Machine/Operands.lean ====
section
/-! DEFINITION. The derived parameters of Table P (spec/00_scope.md, rule R5), the valid output lengths, and the byte-order
helpers: `BE_n`, `be`, blocks and the DIN beat mapping (spec/20_memory.md, rules R33 and R36). -/

namespace Sys2Proof.Machine

/-- Table P, `L`: bytes of the padding's length field. -/
def lengthBytes : Variant → Nat
  | .core32 => 8
  | .core64 => 16

/-- Table P, `PADMARK`: the fill level at which the length field starts. -/
def padMark : Variant → Nat
  | .core32 => 56
  | .core64 => 112

/-- Table P, `SB`: bytes of the full serialized state. -/
def stateBytes : Variant → Nat
  | .core32 => 32
  | .core64 => 64

/-- Table P, `SNAPLEN`: bytes a SNAPSHOT returns. -/
def snapBytes : Variant → Nat
  | .core32 => 41
  | .core64 => 81

/-- Table P, `VALID`: the output lengths INIT accepts. -/
def validLengths : Variant → List Nat
  | .core32 => [28, 32]
  | .core64 => [28, 32, 48, 64]

/-- R75: INIT's membership test, over all 24 bits of the operand. -/
def validLength (v : Variant) (len : Arg) : Bool := (validLengths v).contains len.toNat

/-- R71: the initial vectors of one variant are pairwise distinct. -/
def IvDistinct (iv : (v : Variant) → Nat → Hash v) : Prop :=
  ∀ v, ∀ a ∈ validLengths v, ∀ b ∈ validLengths v, iv v a = iv v b → a = b

/-- R6: the two parameters a rule of the core is stated over. -/
structure Params where
  /-- R81: the compression permutation, a total pure function of a state and a block. -/
  compress : (v : Variant) → Hash v → Block v → Hash v
  /-- R71: the initial vector of an output length (read only at the valid lengths). -/
  iv : (v : Variant) → Nat → Hash v
  /-- R6, R71: `IV_W` is injective on the valid lengths. -/
  ivDistinct : IvDistinct iv

/-- R71 of the vectors of Config. -/
theorem config_iv_distinct : IvDistinct Config.iv := by
  intro v a ha b hb h
  have hl := congrArg (fun x : Hash v => x.h0.toNat) ((Config.ivChoice v).injective h)
  have small : ∀ n ∈ validLengths v, n < 2 ^ v.wordBits := by cases v <;> decide
  simpa [Config.ivLabel, Nat.mod_eq_of_lt, small a ha, small b hb] using hl

/-- `zeros(n)` of 00_scope.md section 6. -/
def zeros (n : Nat) : List Byte := List.replicate n 0

/-- `BE_n(x)` of 00_scope.md section 6: the low `8n` bits of `x`, most significant byte first. -/
def beBytes : Nat → Nat → List Byte
  | 0, _ => []
  | n + 1, x => BitVec.ofNat 8 (x >>> (8 * n)) :: beBytes n x

/-- `be(s)` of 00_scope.md section 6: the integer whose big-endian bytes are `s`. -/
def beNat (s : List Byte) : Nat := s.foldl (fun acc b => 256 * acc + b.toNat) 0

/-- The block that starts a byte list. A list shorter than a block is filled up with zeros, which no caller relies on: each
gives a list of `B` bytes or more. -/
def blockOf (v : Variant) (s : List Byte) : Block v :=
  ⟨(s ++ zeros v.blockBytes).take v.blockBytes, by simp [zeros]⟩

/-- The first `k` blocks of a byte list, in order. -/
def blocksOf (v : Variant) : Nat → List Byte → List (Block v)
  | 0, _ => []
  | k + 1, s => blockOf v s :: blocksOf v k (s.drop v.blockBytes)

/-- A byte list cut into its whole `B`-byte blocks. -/
def cut (v : Variant) (s : List Byte) : List (Block v) := blocksOf v (s.length / v.blockBytes) s

/-- R33: byte `d[i]` of a beat is `DIN[8(B-1-i)+7 : 8(B-1-i)]`, so `d[0]` is the most significant byte. -/
def blockOfBeat (v : Variant) (beat : DinBeat v) : Block v := blockOf v (beBytes v.blockBytes beat.toNat)

/-- R33: the beat that carries a block, `DIN = be(d)`. -/
def beatOfBlock (v : Variant) (block : Block v) : DinBeat v := BitVec.ofNat _ (beNat block.val)

end Sys2Proof.Machine
end

