-- ==== Sys2Proof/Machine/State.lean ====
section
/-! DEFINITION. The state as plain data: the registers of Table S (spec/10_state.md) for a Core32 and a Core64 (rule R140),
the ports of Table I (spec/20_memory.md), the command in progress (rule R42), a recorded violation
(rule R133), and the turns still to come. -/

namespace Sys2Proof.Machine

/-- R16: the lifecycle register, 1 bit. -/
inductive Phase where
  /-- 0: no hash is in flight; `H`, `BC` and `OUTLEN` are unspecified. -/
  | idle
  /-- 1: one hash is in flight. -/
  | active
  deriving DecidableEq, Repr

/-- Table S: the registers whose value INIT sets and RESET and FINALIZE leave unspecified. -/
structure Regs (v : Variant) where
  /-- R10: `H[0..7]`. -/
  h : Hash v
  /-- R13: `BC`. -/
  bc : Count v
  /-- R15: `OUTLEN`, 7 bits. -/
  outlen : BitVec 7
  deriving DecidableEq, Repr

/-- A beat from the core to the host (Table I). -/
inductive OutBeat where
  /-- R34: a response code on RSP. -/
  | rsp (code : BitVec 8)
  /-- R35: an output byte on DOUT with its `last` flag. -/
  | dout (byte : Byte) (last : Bool)
  deriving DecidableEq, Repr

/-- The five contract violations of Table CV (R133): where the spec leaves the core undefined until its next RESET. A command
answers one as its fault; the step records it in the core (`Inst.violation`), and ends the run with it only when nothing else of
the device can move (notes/assumptions/6.md). SAFE: the model promises nothing of the core where hardware might go on. -/
inductive Fault where
  /-- `CV1`: a command word with `op` 0 or 5 to 15. Raised by the step that takes the word. Safe. -/
  | reservedOp
  /-- `CV2`: a command word with `rsv` not zero. Raised by the step that takes the word. Safe. -/
  | reservedBits
  /-- `CV3`: UPDATE, FINALIZE or SNAPSHOT while `PHASE = IDLE`. Raised by those three commands. Safe. -/
  | wrongPhase
  /-- `CV4`: FINALIZE with `pos ≥ B`. Raised by FINALIZE. Safe. -/
  | fillOutOfRange
  /-- `CV5`: SNAPSHOT with `arg ≠ 0`. Raised by SNAPSHOT. Safe. -/
  | snapshotOperand
  deriving DecidableEq, Repr

/-- One core with its ports. -/
structure Inst (v : Variant) where
  regs : Regs v
  phase : Phase
  /-- R133, R152: the contract violation recorded since the last RESET. It stands until the next one, and while it stands no other
  field says anything of the hardware (notes/assumptions/6.md). -/
  violation : Option Fault
  /-- The MODEL's own: how often a register value has been drawn (notes/assumptions/4.md). -/
  draws : Nat
  /-- R42: the command whose CMD beat has been taken and whose payload the core still waits for. -/
  inProgress : Option Instr
  /-- CMD beats the host has offered and the core has not taken, oldest first. -/
  cmd : List CmdWord
  /-- DIN beats the host has offered and no command has taken, oldest first. -/
  din : List (DinBeat v)
  /-- R42: the beats the commands executed so far have still to transfer, RSP before DOUT, in order. -/
  out : List OutBeat
  /-- R45: how many RSP beats the host is ready to accept. -/
  rspReady : Nat
  /-- R45: how many DOUT beats the host is ready to accept. -/
  doutReady : Nat
  /-- The beats transferred to the host so far, oldest first. -/
  sent : List OutBeat
  deriving DecidableEq, Repr

/-- What a host can do at the ports of one core (Table HST, R159). -/
inductive HostMove (v : Variant) where
  /-- R150: apply RESET. -/
  | reset
  /-- Offer a CMD beat. -/
  | offerCmd (word : CmdWord)
  /-- Offer a DIN beat. -/
  | offerDin (beat : DinBeat v)
  /-- Become ready to accept one more RSP beat. -/
  | acceptRsp
  /-- Become ready to accept one more DOUT beat. -/
  | acceptDout
  deriving DecidableEq, Repr

/-- A host move and the core at whose ports it is made. -/
structure HostEvent where
  target : Variant
  move : HostMove target
  deriving DecidableEq, Repr

/-- Whose turn it is. Nothing in the spec orders the host's moves and the cores' (R140, R150), so the order is the
environment's choice (notes/assumptions/15.md). -/
inductive Turn where
  /-- The host makes a move. -/
  | host (event : HostEvent)
  /-- A core does what it can do next. -/
  | core (v : Variant)
  deriving DecidableEq, Repr

/-- The device: one core of each variant, sharing nothing (R140, notes/assumptions/1.md). -/
structure State where
  core32 : Inst .core32
  core64 : Inst .core64
  /-- The MODEL's own: the core whose command the step executes. A command word names no core (R140). -/
  sel : Variant
  /-- The turns still to come, first one first, the host's moves among them (the environment's input, notes/assumptions/2.md).
  With none left the cores go on by themselves. -/
  turns : List Turn
  deriving DecidableEq, Repr

/-- Why a command has no meaning in the model. -/
inductive Refusal where
  /-- A command `exec` gives no meaning yet. Raised by no arm: all four commands are modelled. Safe. -/
  | notModelled (mnemonic : String)
  deriving DecidableEq, Repr

/-- R23, R150, R152: one core right after RESET: `PHASE = IDLE`, no violation recorded, no command in progress, all
ports empty. -/
def Inst.reset (v : Variant) : Inst v where
  regs :=
    { h := Config.resetHash v
      bc := Config.resetCount v
      outlen := Config.resetOutlen v }
  phase := .idle
  violation := none
  draws := 0
  inProgress := none
  cmd := []
  din := []
  out := []
  rspReady := 0
  doutReady := 0
  sent := []

/-- The device right after RESET, with no turn given. -/
def State.reset : State where
  core32 := Inst.reset .core32
  core64 := Inst.reset .core64
  sel := .core32
  turns := []

end Sys2Proof.Machine
end

