-- ==== Sys2Proof/Machine/Ops.lean ====
section
/-! DEFINITION. The named operations the four commands share: the selected core, the primitives DIN.take, RSP.put and DOUT.put
(spec/00_scope.md section 6), the one architected error (rule R131), compression in order (rule R82), the length, padding,
serialization and truncation of FINALIZE (rules R91 to R98), and what RESET and FINALIZE leave (rules R22, R99, R150). -/

namespace Sys2Proof.Machine

/-- The parameters of this machine: the opaque constants of Config. -/
def params : Params where
  compress := Config.compress
  iv := Config.iv
  ivDistinct := config_iv_distinct

/-- The core of a variant. -/
def State.inst (s : State) : (v : Variant) → Inst v
  | .core32 => s.core32
  | .core64 => s.core64

/-- The state with the core of a variant replaced. -/
def State.setInst (s : State) : (v : Variant) → Inst v → State
  | .core32, c => { s with core32 := c }
  | .core64, c => { s with core64 := c }

/-- What an operation of one core answers, as an outcome of the device. -/
def State.answer (s : State) (v : Variant) : Except Fault (Inst v) → Host.Outcome State Fault Refusal
  | .ok c => .next (s.setInst v c)
  | .error e => .fault e

/-- Run an operation of one core on the selected core; the rest of the device is untouched (R140). A core with a recorded
violation runs nothing: the violation stands (R133). A fault is that of the selected core's command, which `State.contain` keeps
on that core. -/
def State.onSelected (s : State) (f : (v : Variant) → Inst v → Except Fault (Inst v)) : Host.Outcome State Fault Refusal :=
  match (s.inst s.sel).violation with
  | some e => .fault e
  | none => s.answer s.sel (f s.sel (s.inst s.sel))

/-- RSP.put: one response beat. -/
def Inst.rspPut {v : Variant} (c : Inst v) (code : BitVec 8) : Inst v :=
  { c with out := c.out ++ [.rsp code] }

/-- R35: the DOUT beats of an output, `last` on the final byte only. -/
def doutBeats : List Byte → List OutBeat
  | [] => []
  | [b] => [.dout b true]
  | b :: b' :: bs => .dout b false :: doutBeats (b' :: bs)

/-- DOUT.put: the output bytes of a command. -/
def Inst.doutPut {v : Variant} (c : Inst v) (bytes : List Byte) : Inst v :=
  { c with out := c.out ++ doutBeats bytes }

/-- The blocks of the next `n` DIN beats, in order. -/
def Inst.dinBlocks {v : Variant} (c : Inst v) (n : Nat) : List (Block v) := (c.din.take n).map (blockOfBeat v)

/-- DIN.take, `n` times. -/
def Inst.dinDrop {v : Variant} (c : Inst v) (n : Nat) : Inst v := { c with din := c.din.drop n }

/-- The command is done: none is in progress. -/
def Inst.finish {v : Variant} (c : Inst v) : Inst v := { c with inProgress := none }

/-- R45: the command waits for payload beats. -/
def Inst.await {v : Variant} (c : Inst v) (i : Instr) : Inst v := { c with inProgress := some i }

/-- R131, R137, R138: `InvalidOutputSize`. No register and no phase changes and nothing is saved: the response beat is the
whole event, and there is nothing to return from. -/
def Inst.raiseInvalidOutputSize {v : Variant} (c : Inst v) : Inst v := c.rspPut rspInvalidOutputSize

/-- R82: compress blocks in order. -/
def compressAll {v : Variant} (P : Params) (h : Hash v) (blocks : List (Block v)) : Hash v :=
  blocks.foldl (P.compress v) h

/-- R83: `(BC + n) mod 2^CB`. -/
def addBlocks {v : Variant} (bc : Count v) (n : Nat) : Count v := bc + BitVec.ofNat _ n

/-- R91: `(8 × (pos + B × BC)) mod 2^CB`. -/
def bitLength {v : Variant} (bc : Count v) (pos : Nat) : Count v :=
  BitVec.ofNat _ (8 * (pos + v.blockBytes * bc.toNat))

/-- R93: `z = (PADMARK − (pos + 1)) mod B`. -/
def zeroFill (v : Variant) (pos : Nat) : Nat := (v.blockBytes + padMark v - (pos + 1)) % v.blockBytes

/-- R93: the padded tail `P` of the message bytes `m` of the partial block. -/
def padTail {v : Variant} (bc : Count v) (m : List Byte) : List Byte :=
  m ++ [0x80] ++ zeros (zeroFill v m.length) ++ beBytes (lengthBytes v) (bitLength bc m.length).toNat

/-- R97: the big-endian serialization of the chaining words in index order. -/
def serialize {v : Variant} (h : Hash v) : List Byte := h.words.flatMap fun x => beBytes v.wordBytes x.toNat

/-- R98: left truncation to the requested length. -/
def digest {v : Variant} (h : Hash v) (outlen : BitVec 7) : List Byte := (serialize h).take outlen.toNat

/-- R22: the registers hold no value any rule gives: each is a free value. -/
def Inst.unspecify {v : Variant} (c : Inst v) : Inst v :=
  { c with
    regs :=
      { h := Config.freeHash v c.draws c.regs.h c.regs.bc c.regs.outlen
        bc := Config.freeCount v c.draws c.regs.h c.regs.bc c.regs.outlen
        outlen := Config.freeOutlen v c.draws c.regs.h c.regs.bc c.regs.outlen }
    draws := c.draws + 1 }

/-- R99: the instance is consumed: `PHASE = IDLE`, the other registers unspecified. -/
def Inst.consume {v : Variant} (c : Inst v) : Inst v := { c.unspecify with phase := .idle }

/-- R133: a contract violation is recorded. Every register, `PHASE` included, may hold any value: free values. The core does
nothing more until RESET (notes/assumptions/6.md). -/
def Inst.violate {v : Variant} (c : Inst v) (e : Fault) : Inst v :=
  { c.unspecify with
    phase := if Config.freeActive v c.draws c.regs.h c.regs.bc c.regs.outlen then .active else .idle
    violation := some e
    inProgress := none }

/-- R150, R151: RESET: `PHASE = IDLE`, the other registers unspecified, the command in progress abandoned, the ports empty, a
recorded violation ended. What was transferred before stays transferred, but after a violation, where it is undefined what was,
the record begins again (notes/assumptions/8.md). -/
def Inst.applyReset {v : Variant} (c : Inst v) : Inst v :=
  { c.consume with
    violation := none
    sent := if c.violation = none then c.sent else []
    inProgress := none
    cmd := []
    din := []
    out := []
    rspReady := 0
    doutReady := 0 }

end Sys2Proof.Machine
end

