-- ==== Sys2Proof/Machine/Finalize.lean ====
section
/-! DEFINITION. FINALIZE (spec/43_finalize.md). -/

namespace Sys2Proof.Machine

/-- R90, R94, R96: the final chaining value: the one or two blocks of the padded tail compressed in order. `BC` is not
written. -/
def finalHash {v : Variant} (P : Params) (r : Regs v) (m : List Byte) : Hash v :=
  compressAll P r.h (cut v (padTail r.bc m))

/-- R90: pad the `pos` message bytes of the buffer beat, compress, output the digest, and consume the instance (R99). `CV3`
is checked before `CV4` (R136), both before the payload; a buffer not yet on DIN is waited for (R45). -/
def finalizeOn (P : Params) (pos : Arg) (v : Variant) (c : Inst v) : Except Fault (Inst v) :=
  if c.phase ≠ .active then .error .wrongPhase
  else if v.blockBytes ≤ pos.toNat then .error .fillOutOfRange
  else
    match c.din with
    | [] => .ok (c.await (.finalize pos))
    | buf :: rest =>
      let h := finalHash P c.regs ((blockOfBeat v buf).val.take pos.toNat)
      .ok ((({ c with regs := { c.regs with h := h }, din := rest }).finish.rspPut rspOk).doutPut
        (digest h c.regs.outlen)).consume

/-- FINALIZE on the selected core. -/
def execFinalize (pos : Arg) (s : State) : Host.Outcome State Fault Refusal := s.onSelected (finalizeOn params pos)

end Sys2Proof.Machine
end

