-- ==== Sys2Proof/Machine/Init.lean ====
section
/-! DEFINITION. INIT (spec/41_init.md). -/

namespace Sys2Proof.Machine

/-- R70: a valid length loads the initial vector, clears the counter, stores the length and begins a hash, from either phase
(R74); any other length raises `InvalidOutputSize` (R73). -/
def initOn (P : Params) (len : Arg) (v : Variant) (c : Inst v) : Except Fault (Inst v) :=
  if validLength v len then
    .ok (({ c with
      regs := { h := P.iv v len.toNat, bc := 0, outlen := BitVec.ofNat 7 len.toNat }
      phase := .active }).finish.rspPut rspOk)
  else
    .ok c.finish.raiseInvalidOutputSize

/-- INIT on the selected core. -/
def execInit (len : Arg) (s : State) : Host.Outcome State Fault Refusal := s.onSelected (initOn params len)

end Sys2Proof.Machine
end

