-- ==== Sys2Proof/Machine/Snapshot.lean ====
section
/-! DEFINITION. SNAPSHOT (spec/44_snapshot.md). -/

namespace Sys2Proof.Machine

/-- R110: `BE_WB(H[0]) ++ … ++ BE_WB(H[7]) ++ BE_L(BC) ++ [OUTLEN]`. -/
def snapshotBytes {v : Variant} (r : Regs v) : List Byte :=
  serialize r.h ++ beBytes (lengthBytes v) r.bc.toNat ++ [r.outlen.setWidth 8]

/-- R110: output the registers and change none. `CV3` is checked before `CV5` (R136). -/
def snapshotOn (arg : Arg) (v : Variant) (c : Inst v) : Except Fault (Inst v) :=
  if c.phase ≠ .active then .error .wrongPhase
  else if arg ≠ 0 then .error .snapshotOperand
  else .ok ((c.finish.rspPut rspOk).doutPut (snapshotBytes c.regs))

/-- SNAPSHOT on the selected core. -/
def execSnapshot (arg : Arg) (s : State) : Host.Outcome State Fault Refusal := s.onSelected (snapshotOn arg)

end Sys2Proof.Machine
end

