-- ==== Sys2Proof/Machine/Update.lean ====
section
/-! DEFINITION. UPDATE (spec/42_update.md). -/

namespace Sys2Proof.Machine

/-- R80: compress the `n` payload blocks in order and count them. In `IDLE` it is `CV3`, whatever the payload; a payload not
yet on DIN is waited for (R45). -/
def updateOn (P : Params) (n : Arg) (v : Variant) (c : Inst v) : Except Fault (Inst v) :=
  if c.phase ≠ .active then .error .wrongPhase
  else if c.din.length < n.toNat then .ok (c.await (.update n))
  else
    .ok ((({ c with
      regs :=
        { c.regs with
          h := compressAll P c.regs.h (c.dinBlocks n.toNat)
          bc := addBlocks c.regs.bc n.toNat } }).dinDrop n.toNat).finish.rspPut rspOk)

/-- UPDATE on the selected core. -/
def execUpdate (n : Arg) (s : State) : Host.Outcome State Fault Refusal := s.onSelected (updateOn params n)

end Sys2Proof.Machine
end

