-- ==== Sys2Proof/Machine/Dispatch.lean ====
section
/-! DEFINITION. The one dispatch: each command of Table O to its meaning. -/

namespace Sys2Proof.Machine

/-- One command on the selected core, as one atomic step (R40). -/
def exec (i : Instr) (s : State) : Host.Outcome State Fault Refusal :=
  match i with
  | .init len => Sys2Proof.Machine.execInit len s
  | .update n => Sys2Proof.Machine.execUpdate n s
  | .finalize pos => Sys2Proof.Machine.execFinalize pos s
  | .snapshot arg => Sys2Proof.Machine.execSnapshot arg s

end Sys2Proof.Machine
end

