-- ==== Sys2Proof/Machine/Ports.lean ====
section
/-! DEFINITION. The ports (spec/20_memory.md, rules R31, R42, R45): what a core can do next, the transfer of an output beat, the
taking of a command word, the host's moves (rule R159), the turns, and one step of the device over any dispatch of commands. -/

namespace Sys2Proof.Machine

/-- What a core does next. -/
inductive Action where
  /-- Nothing: it waits for the host (R45, R158). -/
  | wait
  /-- Transfer the oldest output beat. -/
  | transfer
  /-- Take this command word and execute it. -/
  | fetch (word : CmdWord)
  /-- Execute the command in progress, whose payload is now complete. -/
  | resume (i : Instr)
  deriving DecidableEq, Repr

/-- R45: whether the host is ready for a beat. -/
def Inst.hostReady {v : Variant} (c : Inst v) : OutBeat → Bool
  | .rsp _ => decide (0 < c.rspReady)
  | .dout _ _ => decide (0 < c.doutReady)

/-- R42: payload before response and output, and no command word before the last beat of the command before it. After a
violation nothing until RESET (R133). -/
def Inst.action {v : Variant} (c : Inst v) : Action :=
  match c.violation with
  | some _ => .wait
  | none =>
    match c.inProgress with
    | some i => if i.payload ≤ c.din.length then .resume i else .wait
    | none =>
      match c.out with
      | b :: _ => if c.hostReady b then .transfer else .wait
      | [] =>
        match c.cmd with
        | w :: _ => .fetch w
        | [] => .wait

/-- R45: the oldest output beat goes to the host. -/
def Inst.transfer {v : Variant} (c : Inst v) : Inst v :=
  match c.out with
  | [] => c
  | .rsp code :: rest => { c with out := rest, rspReady := c.rspReady - 1, sent := c.sent ++ [.rsp code] }
  | .dout byte last :: rest => { c with out := rest, doutReady := c.doutReady - 1, sent := c.sent ++ [.dout byte last] }

/-- R32: the oldest command word is taken; the core keeps no copy. -/
def Inst.takeCmd {v : Variant} (c : Inst v) : Inst v := { c with cmd := c.cmd.tail }

/-- R159: a host move at the ports of a core. -/
def Inst.hostMove {v : Variant} (c : Inst v) : HostMove v → Inst v
  | .reset => c.applyReset
  | .offerCmd w => { c with cmd := c.cmd ++ [w] }
  | .offerDin b => { c with din := c.din ++ [b] }
  | .acceptRsp => { c with rspReady := c.rspReady + 1 }
  | .acceptDout => { c with doutReady := c.doutReady + 1 }

/-- The fault of a reserved word (R53). -/
def reservedFault : Reserved → Fault
  | .op => .reservedOp
  | .bits => .reservedBits

/-- The state with a core selected. -/
def State.select (s : State) (v : Variant) : State := { s with sel := v }

/-- The core selected and its oldest command word taken. -/
def State.takeCmd (s : State) (v : Variant) : State := (s.select v).setInst v (s.inst v).takeCmd

/-- The turn of the next step: the first one given, and with none given that of a core that can act, Core32 before Core64. With
none of both the device rests. -/
def State.turn (s : State) : Option Turn :=
  match s.turns with
  | t :: _ => some t
  | [] =>
    if s.core32.action ≠ .wait then some (.core .core32)
    else if s.core64.action ≠ .wait then some (.core .core64)
    else none

/-- The turn is used up. -/
def State.dropTurn (s : State) : State := { s with turns := s.turns.tail }

/-- A host move, at any time (R150, R159). -/
def State.hostStep (s : State) (e : HostEvent) : State := s.setInst e.target ((s.inst e.target).hostMove e.move)

/-- R133, R140: a violation of a core stays on that core: it is recorded there, and the rest of the device goes on. -/
def State.contain (s : State) (v : Variant) : Host.Outcome State Fault Refusal → Host.Outcome State Fault Refusal
  | .next t => .next t
  | .fault e => .next (s.setInst v ((s.inst v).violate e))
  | .refused r => .refused r

/-- The turn of a core: an output beat, the command in progress, or a new command word. A core that waits does nothing. -/
def State.serve (s : State) (run : Instr → State → Host.Outcome State Fault Refusal) (v : Variant) :
    Host.Outcome State Fault Refusal :=
  match (s.inst v).action with
  | .wait => .next s
  | .transfer => .next (s.setInst v (s.inst v).transfer)
  | .resume i => s.contain v (run i (s.select v))
  | .fetch w =>
    match decode w with
    | .ok i => (s.takeCmd v).contain v (run i (s.takeCmd v))
    | .error r => (s.takeCmd v).contain v (.fault (reservedFault r))

/-- A violation recorded in the device, that of Core32 first. -/
def State.violation (s : State) : Option Fault :=
  match s.core32.violation with
  | some e => some e
  | none => s.core64.violation

/-- The device rests: no core can act and no move is to come. Without a violation it waits, holding its state (R141, R158); with
one the run ends in it, since a faulted state is never final (R133). -/
def State.rest (s : State) : Host.Outcome State Fault Refusal :=
  match s.violation with
  | some e => .fault e
  | none => .next s

/-- One step of the device: one turn. -/
def stepWith (run : Instr → State → Host.Outcome State Fault Refusal) (s : State) : Host.Outcome State Fault Refusal :=
  match s.turn with
  | some (.host e) => .next (s.dropTurn.hostStep e)
  | some (.core v) => s.dropTurn.serve run v
  | none => s.rest

/-- The command the next step executes and the core it executes it on, if the next step executes one. -/
def State.executes (s : State) : Option (Variant × Instr) :=
  match s.turn with
  | none => none
  | some (.host _) => none
  | some (.core v) =>
    match (s.inst v).action with
    | .wait => none
    | .transfer => none
    | .resume i => some (v, i)
    | .fetch w =>
      match decode w with
      | .ok i => some (v, i)
      | .error _ => none

/-- A core that takes this command word next. -/
def Inst.offerNext {v : Variant} (c : Inst v) (w : CmdWord) : Inst v :=
  { c with violation := none, inProgress := none, out := [], cmd := w :: c.cmd }

end Sys2Proof.Machine
end

