-- ==== Sys2Proof/Machine/Step.lean ====
section
/-! DEFINITION. One step of the machine, and the host's way to place a command word where the next step takes it. -/

namespace Sys2Proof.Machine

/-- One step: one whole command (R7, R40), or one beat to the host, or one move of the host. -/
def step (s : State) : Host.Outcome State Fault Refusal := stepWith exec s

/-- The state in which the next step takes the command word numbered as spec/opcode_table.json numbers it, on the CMD port of
Core32, and it is the turn of Core32. A command word is taken when no violation stands, no command is in progress and every beat
of the one before has been transferred (R42, R133). -/
def State.withFetchWord (s : State) (nbits w : Nat) : State :=
  { s with
    core32 := s.core32.offerNext (tableWord nbits w)
    turns := .core .core32 :: s.turns }

end Sys2Proof.Machine
end

