-- ==== Sys2Proof/Machine/Fips.lean ====
section
/-! DEFINITION. The FIPS 180-4 instantiation of the two parameters: the annex spec/48_compress_reference.md (rules R115 to
R120) and Table IV of spec/41_init.md (rule R72). The spec marks all of it as general knowledge and as ONE value of the
parameters; the machine itself is stated over arbitrary ones (rule R6). -/

namespace Sys2Proof.Machine.Fips

/-- R115: `ROTR^n(x)`. -/
def rotr {w : Nat} (n : Nat) (x : BitVec w) : BitVec w := (x >>> n) ||| (x <<< (w - n))

/-- R115: `Ch(x, y, z)`. -/
def choose {w : Nat} (x y z : BitVec w) : BitVec w := (x &&& y) ^^^ (~~~x &&& z)

/-- R115: `Maj(x, y, z)`. -/
def majority {w : Nat} (x y z : BitVec w) : BitVec w := (x &&& y) ^^^ (x &&& z) ^^^ (y &&& z)

/-- R116: `Σ0`. -/
def bigSigma0 : (v : Variant) → Word v → Word v
  | .core32, x => rotr 2 x ^^^ rotr 13 x ^^^ rotr 22 x
  | .core64, x => rotr 28 x ^^^ rotr 34 x ^^^ rotr 39 x

/-- R116: `Σ1`. -/
def bigSigma1 : (v : Variant) → Word v → Word v
  | .core32, x => rotr 6 x ^^^ rotr 11 x ^^^ rotr 25 x
  | .core64, x => rotr 14 x ^^^ rotr 18 x ^^^ rotr 41 x

/-- R116: `σ0`. -/
def smallSigma0 : (v : Variant) → Word v → Word v
  | .core32, x => rotr 7 x ^^^ rotr 18 x ^^^ (x >>> 3)
  | .core64, x => rotr 1 x ^^^ rotr 8 x ^^^ (x >>> 7)

/-- R116: `σ1`. -/
def smallSigma1 : (v : Variant) → Word v → Word v
  | .core32, x => rotr 17 x ^^^ rotr 19 x ^^^ (x >>> 10)
  | .core64, x => rotr 19 x ^^^ rotr 61 x ^^^ (x >>> 6)

/-- The first `n` of the `w`-bit words that a number holds as its low `n * w` bits, most significant word first. -/
def wordsOfNumber (w : Nat) : Nat → Nat → List (BitVec w)
  | 0, _ => []
  | n + 1, x => BitVec.ofNat w (x >>> (w * n)) :: wordsOfNumber w n x

/-- R119: Table K256, one number a printed row of eight constants. -/
def tableK256 : List Nat :=
  [0x428a2f9871374491b5c0fbcfe9b5dba53956c25b59f111f1923f82a4ab1c5ed5,
   0xd807aa9812835b01243185be550c7dc372be5d7480deb1fe9bdc06a7c19bf174,
   0xe49b69c1efbe47860fc19dc6240ca1cc2de92c6f4a7484aa5cb0a9dc76f988da,
   0x983e5152a831c66db00327c8bf597fc7c6e00bf3d5a7914706ca635114292967,
   0x27b70a852e1b21384d2c6dfc53380d13650a7354766a0abb81c2c92e92722c85,
   0xa2bfe8a1a81a664bc24b8b70c76c51a3d192e819d6990624f40e3585106aa070,
   0x19a4c1161e376c082748774c34b0bcb5391c0cb34ed8aa4a5b9cca4f682e6ff3,
   0x748f82ee78a5636f84c878148cc7020890befffaa4506cebbef9a3f7c67178f2]

/-- R120: Table K512, one number two printed rows of four constants. -/
def tableK512 : List Nat :=
  [0x428a2f98d728ae227137449123ef65cdb5c0fbcfec4d3b2fe9b5dba58189dbbc3956c25bf348b53859f111f1b605d019923f82a4af194f9bab1c5ed5da6d8118,
   0xd807aa98a303024212835b0145706fbe243185be4ee4b28c550c7dc3d5ffb4e272be5d74f27b896f80deb1fe3b1696b19bdc06a725c71235c19bf174cf692694,
   0xe49b69c19ef14ad2efbe4786384f25e30fc19dc68b8cd5b5240ca1cc77ac9c652de92c6f592b02754a7484aa6ea6e4835cb0a9dcbd41fbd476f988da831153b5,
   0x983e5152ee66dfaba831c66d2db43210b00327c898fb213fbf597fc7beef0ee4c6e00bf33da88fc2d5a79147930aa72506ca6351e003826f142929670a0e6e70,
   0x27b70a8546d22ffc2e1b21385c26c9264d2c6dfc5ac42aed53380d139d95b3df650a73548baf63de766a0abb3c77b2a881c2c92e47edaee692722c851482353b,
   0xa2bfe8a14cf10364a81a664bbc423001c24b8b70d0f89791c76c51a30654be30d192e819d6ef5218d69906245565a910f40e35855771202a106aa07032bbd1b8,
   0x19a4c116b8d2d0c81e376c085141ab532748774cdf8eeb9934b0bcb5e19b48a8391c0cb3c5c95a634ed8aa4ae3418acb5b9cca4f7763e373682e6ff3d6b2b8a3,
   0x748f82ee5defb2fc78a5636f43172f6084c87814a1f0ab728cc702081a6439ec90befffa23631e28a4506cebde82bde9bef9a3f7b2c67915c67178f2e372532b,
   0xca273eceea26619cd186b8c721c0c207eada7dd6cde0eb1ef57d4f7fee6ed17806f067aa72176fba0a637dc5a2c898a6113f9804bef90dae1b710b35131c471b,
   0x28db77f523047d8432caab7b40c724933c9ebe0a15c9bebc431d67c49c100d4c4cc5d4becb3e42b6597f299cfc657e2a5fcb6fab3ad6faec6c44198c4a475817]

/-- R118: the round constants of a variant. -/
def roundConstants : (v : Variant) → List (Word v)
  | .core32 => tableK256.flatMap (wordsOfNumber 32 8)
  | .core64 => tableK512.flatMap (wordsOfNumber 64 8)

/-- R117: the first `n` words of a block, read big-endian. -/
def wordsOf (v : Variant) : Nat → List Byte → List (Word v)
  | 0, _ => []
  | n + 1, b => BitVec.ofNat _ (beNat (b.take v.wordBytes)) :: wordsOf v n (b.drop v.wordBytes)

/-- R117: `n` more schedule words, the list holding the newest first:
`w[t] = σ1(w[t−2]) + w[t−7] + σ0(w[t−15]) + w[t−16]`. -/
def extend (v : Variant) : Nat → List (Word v) → List (Word v)
  | 0, w => w
  | n + 1, w => extend v n ((smallSigma1 v (w.getD 1 0) + w.getD 6 0 + smallSigma0 v (w.getD 14 0) + w.getD 15 0) :: w)

/-- R117: the message schedule of a block, one word a round. -/
def schedule (v : Variant) (b : Block v) : List (Word v) :=
  (extend v ((roundConstants v).length - 16) (wordsOf v 16 b.val).reverse).reverse

/-- R118: one round on the working variables `(a, …, h)`, with the round's constant and schedule word. -/
def oneRound {v : Variant} (s : Hash v) (kw : Word v × Word v) : Hash v :=
  let t1 := s.h7 + bigSigma1 v s.h4 + choose s.h4 s.h5 s.h6 + kw.1 + kw.2
  let t2 := bigSigma0 v s.h0 + majority s.h0 s.h1 s.h2
  { h0 := t1 + t2, h1 := s.h0, h2 := s.h1, h3 := s.h2, h4 := s.h3 + t1, h5 := s.h4, h6 := s.h5, h7 := s.h6 }

/-- R118: word-wise addition of two chaining values. -/
def addWords {v : Variant} (s r : Hash v) : Hash v :=
  { h0 := s.h0 + r.h0, h1 := s.h1 + r.h1, h2 := s.h2 + r.h2, h3 := s.h3 + r.h3
    h4 := s.h4 + r.h4, h5 := s.h5 + r.h5, h6 := s.h6 + r.h6, h7 := s.h7 + r.h7 }

/-- R118: `Compress_W(s, b)`. -/
def compress (v : Variant) (s : Hash v) (b : Block v) : Hash v :=
  addWords s (((roundConstants v).zip (schedule v b)).foldl oneRound s)

/-- A chaining value from the number whose words it holds, `H[0]` first, as Table IV prints a row. -/
def hashOf (v : Variant) (x : Nat) : Hash v :=
  let word := fun i => BitVec.ofNat v.wordBits (x >>> (v.wordBits * (7 - i)))
  { h0 := word 0, h1 := word 1, h2 := word 2, h3 := word 3, h4 := word 4, h5 := word 5, h6 := word 6, h7 := word 7 }

/-- R72: Table IV, a row a number. -/
def ivRow : Variant → Nat → Nat
  | .core32, len =>
    if len = 28 then 0xc1059ed8367cd5073070dd17f70e5939ffc00b316858151164f98fa7befa4fa4
    else 0x6a09e667bb67ae853c6ef372a54ff53a510e527f9b05688c1f83d9ab5be0cd19
  | .core64, len =>
    if len = 28 then
      0x8c3d37c819544da273e1996689dcd4d61dfab7ae32ff9c82679dd514582f9fcf0f6d2b697bd44da877e36f7304c489423f9d85a86a1d36c81112e6ad91d692a1
    else if len = 32 then
      0x22312194fc2bf72c9f555fa3c84c64c22393b86b6f53b151963877195940eabd96283ee2a88effe3be5e1e25538639922b0199fc2c85b8aa0eb72ddc81c52ca2
    else if len = 48 then
      0xcbbb9d5dc1059ed8629a292a367cd5079159015a3070dd17152fecd8f70e593967332667ffc00b318eb44a8768581511db0c2e0d64f98fa747b5481dbefa4fa4
    else
      0x6a09e667f3bcc908bb67ae8584caa73b3c6ef372fe94f82ba54ff53a5f1d36f1510e527fade682d19b05688c2b3e6c1f1f83d9abfb41bd6b5be0cd19137e2179

/-- R72: the published initial vectors. -/
def iv (v : Variant) (len : Nat) : Hash v := hashOf v (ivRow v len)

/-- R71 of Table IV. -/
theorem iv_distinct : IvDistinct iv := by
  intro v
  cases v <;> decide +kernel

/-- The FIPS 180-4 instantiation. -/
def params : Params where
  compress := compress
  iv := iv
  ivDistinct := iv_distinct

/-- R123: the block that the generation of a SHA-512/t initial vector compresses: an 11-byte ASCII name padded. -/
def generationBlock (name : List Byte) : Block .core64 :=
  blockOf .core64 (name ++ [0x80] ++ zeros (111 - name.length) ++ beBytes 16 (8 * name.length))

/-- R123: the chaining value the generation starts from. -/
def generationStart : Hash .core64 :=
  let flip := fun x : Word .core64 => x ^^^ 0xa5a5a5a5a5a5a5a5
  let s := iv .core64 64
  { h0 := flip s.h0, h1 := flip s.h1, h2 := flip s.h2, h3 := flip s.h3
    h4 := flip s.h4, h5 := flip s.h5, h6 := flip s.h6, h7 := flip s.h7 }

end Sys2Proof.Machine.Fips
end

