-- ==== Sys2Proof/Machine/Hash.lean ====
section
/-! DEFINITION. The pseudo-command `HASH.<alg> : M` (spec/30_encoding.md, rules R58, R59): the command sequence and the DIN beats
by which a host hashes a whole message, and the digest the rules promise. -/

namespace Sys2Proof.Machine

/-- Commands in the order of their command words (R41), on the selected core, each seeing the state the one before left. -/
def runAll : List Instr → State → Host.Outcome State Fault Refusal
  | [], s => .next s
  | i :: rest, s =>
    match exec i s with
    | .next t => runAll rest t
    | .fault f => .fault f
    | .refused r => .refused r

/-- R58: `INIT len`, UPDATEs with the block counts of a split, `FINALIZE r`. -/
def hashCommands (v : Variant) (len : Arg) (split : List Arg) (M : List Byte) : List Instr :=
  [.init len] ++ split.map .update ++ [.finalize (BitVec.ofNat 24 (M.length % v.blockBytes))]

/-- R58: the DIN beats of those commands: the whole blocks of `M`, then what is left of `M` with any fill. -/
def hashBeats (v : Variant) (M fill : List Byte) : List (DinBeat v) :=
  (cut v M).map (beatOfBlock v) ++
    [beatOfBlock v (blockOf v (M.drop (v.blockBytes * (M.length / v.blockBytes)) ++ fill))]

/-- R59: the number of zero bytes that makes the padded message a whole number of blocks. -/
def messageZeros (v : Variant) (len : Nat) : Nat :=
  (v.blockBytes - (len + 1 + lengthBytes v) % v.blockBytes) % v.blockBytes

/-- R59: `Pad_W(M) = M ++ [0x80] ++ zeros(z) ++ BE_L(8ℓ)`. -/
def padMessage (v : Variant) (M : List Byte) : List Byte :=
  M ++ [0x80] ++ zeros (messageZeros v M.length) ++ beBytes (lengthBytes v) (8 * M.length)

/-- R59: `Trunc_len(Ser(fold(Compress, IV_W(len), Pad_W(M))))`. -/
def hashResult (P : Params) (v : Variant) (len : Nat) (M : List Byte) : List Byte :=
  (serialize (compressAll P (P.iv v len) (cut v (padMessage v M)))).take len

end Sys2Proof.Machine
end

