-- ==== Sys2Proof/Machine/Instantiate.lean ====
section
/-! DEFINITION. The machine over any value of the two parameters (spec/00_scope.md, rule R6). `exec` is the case of the opaque
parameters of Config; the FIPS 180-4 instantiation is another. -/

namespace Sys2Proof.Machine

/-- A command on one core, over parameters `P`. -/
def commandOn (P : Params) : Instr → (v : Variant) → Inst v → Except Fault (Inst v)
  | .init len => initOn P len
  | .update n => updateOn P n
  | .finalize pos => finalizeOn P pos
  | .snapshot arg => snapshotOn arg

/-- A command on the selected core, over parameters `P`. -/
def execWith (P : Params) (i : Instr) (s : State) : Host.Outcome State Fault Refusal := s.onSelected (commandOn P i)

end Sys2Proof.Machine
end

