-- ==== Sys2Proof/Safety.lean ====
section
/-! DEFINITION. What a host may do and what a core keeps: when a command is no contract violation (spec/60_exceptions.md, rule
R133), what two states agree in (rule R22), the chaining invariant (spec/10_state.md, rule R12), and the form of the ports
(spec/20_memory.md, rule R42). -/

namespace Sys2Proof.Machine

/-- R133, R159: whether a command is no contract violation on a core in this state. -/
def Inst.accepts {v : Variant} (c : Inst v) : Instr → Bool
  | .init _ => true
  | .update _ => decide (c.phase = .active)
  | .finalize pos => decide (c.phase = .active) && (Instr.finalize pos).wellFormed v
  | .snapshot arg => decide (c.phase = .active) && (Instr.snapshot arg).wellFormed v

/-- R22, R133: two cores agree in everything to which the spec gives a value: a violation on neither or the same one on both, and
without one all but `H`, `BC`, `OUTLEN` (and the model's own `draws`), and these too while a hash is in flight. -/
def Inst.Agrees {v : Variant} (c d : Inst v) : Prop :=
  d.violation = c.violation ∧
    (c.violation = none → d = { c with regs := d.regs, draws := d.draws } ∧ (c.phase = .active → d.regs = c.regs))

/-- Two devices agree in both cores, in the turns to come and in the selection. -/
def State.Agrees (s t : State) : Prop := t.sel = s.sel ∧ t.turns = s.turns ∧ ∀ v, (s.inst v).Agrees (t.inst v)

/-- Two outcomes agree: the same fault or the same refusal, or next states that agree. -/
def OutcomesAgree : Host.Outcome State Fault Refusal → Host.Outcome State Fault Refusal → Prop
  | .next s, .next t => s.Agrees t
  | .fault e, .fault f => e = f
  | .refused q, .refused r => q = r
  | _, _ => False

/-- R12, R15: while a hash is in flight, `OUTLEN` is a valid length, `H` is the initial vector of that length with some blocks
compressed in order, and `BC` counts those blocks modulo `2^CB`. -/
def Inst.Chained {v : Variant} (P : Params) (c : Inst v) : Prop :=
  c.violation = none → c.phase = .active →
    c.regs.outlen.toNat ∈ validLengths v ∧
      ∃ blocks : List (Block v),
        c.regs.h = compressAll P (P.iv v c.regs.outlen.toNat) blocks ∧ c.regs.bc = BitVec.ofNat _ blocks.length

/-- R12 of every core of the device. -/
def State.Chained (P : Params) (s : State) : Prop := ∀ v, (s.inst v).Chained P

/-- R35: DOUT beats with `last` on the final one only. -/
def lastOnFinal : List OutBeat → Bool
  | [] => true
  | .dout _ last :: rest => (last == rest.isEmpty) && lastOnFinal rest
  | .rsp _ :: _ => false

/-- R34, R35, R56: what is left of one response: at most one response code, which is one of the two of Table Q, before any output
byte, and no output byte after `INVALID_OUTPUT_SIZE`. -/
def responseForm : List OutBeat → Bool
  | .rsp code :: rest => if code = 0x00#8 then lastOnFinal rest else decide (code = 0x01#8) && rest.isEmpty
  | beats => lastOnFinal beats

/-- R42, R45, R54: only a command with a payload is ever waited for, in `ACTIVE`, with a legal operand and with every beat of the
command before it transferred; what is left to transfer is one response. Of a core with a recorded violation this is the form of
the model's idle core, since R133 gives its ports none (notes/assumptions/6.md). -/
def Inst.PortsInOrder {v : Variant} (c : Inst v) : Prop :=
  responseForm c.out = true ∧
    ∀ i, c.inProgress = some i → c.out = [] ∧ c.accepts i = true ∧ 0 < i.payload

/-- The port form of every core of the device. -/
def State.PortsInOrder (s : State) : Prop := ∀ v, (s.inst v).PortsInOrder

end Sys2Proof.Machine
end

