-- ==== Sys2Proof/Certificates/Slice0/Obligations.lean ====
section
/-! DEFINITION. The statements for the provers. Each docstring names the rule of spec/ it formalises. The premise that a core has
no violation recorded is the one rule R133 asks of every claim: "no contract violation occurs". -/

open Sys2Proof Sys2Proof.Machine

/-! ### Command words -/

/-- R50 to R53: the decoder and the encoder are inverse to each other on every word and every command. -/
def Obligations.DecodeEncodeAgree : Prop :=
  ∀ (w : CmdWord) (i : Instr), decode w = .ok i ↔ w = encode i

/-- R53: the decoder's verdict on every 32-bit word: `CV2` exactly when `rsv ≠ 0`, `CV1` exactly when `rsv = 0` and `op` is 0 or 5
to 15, and otherwise the command of Table O with the whole `arg` field. -/
def Obligations.DecoderVerdicts : Prop :=
  ∀ w : CmdWord,
    (decode w = .error .bits ↔ w.extractLsb' 24 4 ≠ 0) ∧
    (decode w = .error .op ↔
      w.extractLsb' 24 4 = 0 ∧ ((w.extractLsb' 28 4).toNat = 0 ∨ 5 ≤ (w.extractLsb' 28 4).toNat)) ∧
    (w.extractLsb' 24 4 = 0 → (w.extractLsb' 28 4).toNat = 1 → decode w = .ok (.init (w.extractLsb' 0 24))) ∧
    (w.extractLsb' 24 4 = 0 → (w.extractLsb' 28 4).toNat = 2 → decode w = .ok (.update (w.extractLsb' 0 24))) ∧
    (w.extractLsb' 24 4 = 0 → (w.extractLsb' 28 4).toNat = 3 → decode w = .ok (.finalize (w.extractLsb' 0 24))) ∧
    (w.extractLsb' 24 4 = 0 → (w.extractLsb' 28 4).toNat = 4 → decode w = .ok (.snapshot (w.extractLsb' 0 24)))

/-- R57: the encodings of the common lines, as the spec prints them. -/
def Obligations.PrintedWordsDecode : Prop :=
  decode 0x1000001C#32 = .ok (.init 28) ∧ decode 0x10000020#32 = .ok (.init 32) ∧
  decode 0x10000030#32 = .ok (.init 48) ∧ decode 0x10000040#32 = .ok (.init 64) ∧
  decode 0x20000002#32 = .ok (.update 2) ∧ decode 0x30000037#32 = .ok (.finalize 55) ∧
  decode 0x30000070#32 = .ok (.finalize 112) ∧ decode 0x40000000#32 = .ok (.snapshot 0)

/-! ### One step of the device -/

/-- R41, R42: on the turn of a core that may take its next command word, where the word decodes to `i`, the step takes the word
and is `exec i` on that core. A violation of the command is recorded on that core, and the device goes on (R133, R140). The turns
are the environment's choice, and Core32 comes first with none given (notes/assumptions/1.md, 15.md). The record is the model's
form of a violation (6.md). -/
def Obligations.StepRunsDecodedCommand : Prop :=
  ∀ (s taken : State) (v : Variant) (w : CmdWord) (ws : List CmdWord) (i : Instr) (c : Inst v), s.inst v = c →
    s.turn = some (.core v) →
    c.violation = none → c.inProgress = none → c.out = [] → c.cmd = w :: ws →
    decode w = .ok i →
    taken = ({ s with sel := v, turns := s.turns.tail } : State).setInst v { c with cmd := ws } →
    (∀ t, exec i taken = .next t → step s = .next t) ∧
    (∀ e, exec i taken = .fault e → step s = .next (taken.setInst v (({ c with cmd := ws } : Inst v).violate e)))

/-- R133, R136: a reserved word is the violation `CV2` when `rsv ≠ 0`, else `CV1`, in either phase; the other core goes on (R140).
The record on the core is the model's form of a violation (notes/assumptions/6.md), the turns are the environment's choice (1.md,
15.md). -/
def Obligations.ReservedWordFaults : Prop :=
  ∀ (s : State) (v : Variant) (w : CmdWord) (ws : List CmdWord) (c : Inst v), s.inst v = c →
    s.turn = some (.core v) →
    c.violation = none → c.inProgress = none → c.out = [] → c.cmd = w :: ws →
    (w.extractLsb' 24 4 ≠ 0 ∨ (w.extractLsb' 28 4).toNat = 0 ∨ 5 ≤ (w.extractLsb' 28 4).toNat) →
    ∃ t, step s = .next t ∧ t.turns = s.turns.tail ∧ (∀ u, u ≠ v → t.inst u = s.inst u) ∧
      (w.extractLsb' 24 4 ≠ 0 → (t.inst v).violation = some .reservedBits) ∧
      (w.extractLsb' 24 4 = 0 → (t.inst v).violation = some .reservedOp)

/-- R42, R45: on its core's turn the command in progress executes as soon as the whole payload is on DIN. That a payload is taken
whole is the model's choice (notes/assumptions/7.md), the turns are the environment's (1.md, 15.md), the record of a violation is
its form in the model (6.md). -/
def Obligations.StepResumesWaitingCommand : Prop :=
  ∀ (s here : State) (v : Variant) (i : Instr) (c : Inst v), s.inst v = c →
    s.turn = some (.core v) →
    c.violation = none → c.inProgress = some i → i.payload ≤ c.din.length →
    here = ({ s with sel := v, turns := s.turns.tail } : State) →
    (∀ t, exec i here = .next t → step s = .next t) ∧
    (∀ e, exec i here = .fault e → step s = .next (({ s with turns := s.turns.tail } : State).setInst v (c.violate e)))

/-- R42, R45: on its core's turn, with no command in progress, the oldest output beat is transferred when the host is ready for
it, and nothing else changes. The host's readiness as a count in the state is the model's choice (notes/assumptions/2.md), the
turns are the environment's (1.md, 15.md). -/
def Obligations.StepTransfersOldestBeat : Prop :=
  ∀ (s : State) (v : Variant) (rest : List OutBeat) (c : Inst v), s.inst v = c →
    s.turn = some (.core v) →
    c.violation = none → c.inProgress = none →
    (∀ code, c.out = .rsp code :: rest → 0 < c.rspReady →
      step s = .next (({ s with turns := s.turns.tail } : State).setInst v
        { c with
          out := rest
          rspReady := c.rspReady - 1
          sent := c.sent ++ [.rsp code] })) ∧
    (∀ byte last, c.out = .dout byte last :: rest → 0 < c.doutReady →
      step s = .next (({ s with turns := s.turns.tail } : State).setInst v
        { c with
          out := rest
          doutReady := c.doutReady - 1
          sent := c.sent ++ [.dout byte last] }))

/-- R140, R150: whose turn it is: the first turn given, which the environment chooses, and with none given a core that can act,
Core32 first, which is the model's choice (notes/assumptions/1.md, 15.md). The turn of a core that waits changes nothing; that a
core with a recorded violation waits is the model's choice too (6.md). -/
def Obligations.TurnOrder : Prop :=
  ∀ s : State,
    (∀ turn rest, s.turns = turn :: rest → s.turn = some turn) ∧
    (s.turns = [] →
      (s.core32.action ≠ .wait → s.turn = some (.core .core32)) ∧
      (s.core32.action = .wait → s.core64.action ≠ .wait → s.turn = some (.core .core64)) ∧
      (s.core32.action = .wait → s.core64.action = .wait → s.turn = none)) ∧
    (∀ v, s.turn = some (.core v) → (s.inst v).action = .wait → step s = .next { s with turns := s.turns.tail })

/-- R45, R158: what a core waits for: payload the host withholds, a beat the host does not accept, or a command word; after a
violation for RESET (R133). The ports as queues are the model's choice (notes/assumptions/2.md, 7.md). -/
def Obligations.CoreWaitsExactlyForTheHost : Prop :=
  ∀ (v : Variant) (c : Inst v),
    c.action = .wait ↔
      c.violation ≠ none ∨
      (∃ i, c.inProgress = some i ∧ c.din.length < i.payload) ∨
      (c.inProgress = none ∧ ∃ code rest, c.out = .rsp code :: rest ∧ c.rspReady = 0) ∨
      (c.inProgress = none ∧ ∃ byte last rest, c.out = .dout byte last :: rest ∧ c.doutReady = 0) ∨
      (c.inProgress = none ∧ c.out = [] ∧ c.cmd = [])

/-- R141, R158: with both cores waiting and no turn given, a step changes nothing and is no fault. R133: where a violation stands,
the run ends in it. The turns in the state are the model's choice (notes/assumptions/2.md, 15.md), the record of a violation and
its end of the run too (6.md). -/
def Obligations.WaitingHoldsTheState : Prop :=
  ∀ s : State, s.core32.action = .wait → s.core64.action = .wait → s.turns = [] →
    (s.core32.violation = none → s.core64.violation = none → step s = .next s) ∧
    (∀ e, s.core32.violation = some e → step s = .fault e) ∧
    (∀ e, s.core32.violation = none → s.core64.violation = some e → step s = .fault e)

/-- R31, R45, R159: on the host's turn its offer or readiness reaches the port it names and nothing else, whatever the cores are
doing. The host's moves in the state are the model's choice (notes/assumptions/2.md, 15.md), and that an offer reaches the queue
of a core with a recorded violation as well (6.md). -/
def Obligations.HostOffersReachTheirPort : Prop :=
  ∀ (s : State) (v : Variant) (m : HostMove v) (rest : List Turn) (c : Inst v), s.inst v = c →
    s.turns = .host ⟨v, m⟩ :: rest →
    (∀ w, m = .offerCmd w → step s = .next (({ s with turns := rest } : State).setInst v
      { c with cmd := c.cmd ++ [w] })) ∧
    (∀ b, m = .offerDin b → step s = .next (({ s with turns := rest } : State).setInst v
      { c with din := c.din ++ [b] })) ∧
    (m = .acceptRsp → step s = .next (({ s with turns := rest } : State).setInst v
      { c with rspReady := c.rspReady + 1 })) ∧
    (m = .acceptDout → step s = .next (({ s with turns := rest } : State).setInst v
      { c with doutReady := c.doutReady + 1 }))

/-- R150, R151: RESET, at any time and whatever the core was doing: `PHASE = IDLE`, no violation recorded, no command in progress,
all ports empty, the registers some value, and no beat of an abandoned response transferred. The host's moves in the state are the
model's choice (notes/assumptions/2.md, 15.md), and so is how the ports and the record of transferred beats are emptied (8.md). -/
def Obligations.ResetAbandonsEverything : Prop :=
  ∀ (s : State) (v : Variant) (rest : List Turn) (c : Inst v), s.inst v = c →
    s.turns = .host ⟨v, .reset⟩ :: rest →
    ∃ (r : Regs v) (n : Nat),
      step s = .next (({ s with turns := rest } : State).setInst v
        { regs := r
          phase := .idle
          violation := none
          draws := n
          inProgress := none
          cmd := []
          din := []
          out := []
          rspReady := 0
          doutReady := 0
          sent := if c.violation = none then c.sent else [] })

/-- R133: a recorded violation stands, and its core executes no command, until the step that is a RESET of that core. The record
and the idle core are the model's form of a violation (notes/assumptions/6.md). -/
def Obligations.ViolationStandsUntilReset : Prop :=
  ∀ (s t : State) (v : Variant) (e : Fault),
    step s = .next t → (s.inst v).violation = some e → s.turn ≠ some (.host ⟨v, .reset⟩) →
    (t.inst v).violation = some e ∧ (∀ i, s.executes ≠ some (v, i)) ∧ (t.inst v).sent = (s.inst v).sent

/-- R7, R140, R159: a core's turn always goes on to a next state, depends on that core alone and changes that core alone. That it
goes on where its command is a violation too, and does nothing where one is recorded already, is the model's form of a violation
(notes/assumptions/6.md). One core of each variant is the model's choice (1.md), the turns are the environment's (15.md). -/
def Obligations.CoreTurnsAreIndependent : Prop :=
  ∀ (s s' : State) (v : Variant) (rest rest' : List Turn),
    s.turns = .core v :: rest → s'.turns = .core v :: rest' → s.inst v = s'.inst v →
    ∃ t t', step s = .next t ∧ step s' = .next t' ∧ t.turns = rest ∧ t'.turns = rest' ∧
      (t.inst v).Agrees (t'.inst v) ∧ ∀ u, u ≠ v → t.inst u = s.inst u ∧ t'.inst u = s'.inst u

/-- R42: the next command word is not accepted while a command is in progress or a beat of its response is still to be
transferred: what the host has offered on CMD stays offered, unless the step is a RESET of that core. The queue of offered words
is the model's choice (notes/assumptions/2.md), and so is that a core with a recorded violation takes no word (6.md). -/
def Obligations.CommandWordWaitsItsTurn : Prop :=
  ∀ (s t : State) (v : Variant),
    step s = .next t → ((s.inst v).inProgress ≠ none ∨ (s.inst v).out ≠ []) →
    s.turn ≠ some (.host ⟨v, .reset⟩) →
    (s.inst v).cmd <+: (t.inst v).cmd

/-- R23, R152: the launch state: `PHASE = IDLE`, no fault recorded, no command in progress, all ports empty. One core of each
variant is the model's choice (notes/assumptions/1.md). -/
def Obligations.LaunchState : Prop :=
  (∀ v, (State.reset.inst v).phase = .idle ∧ (State.reset.inst v).violation = none ∧
    (State.reset.inst v).inProgress = none ∧
    (State.reset.inst v).cmd = [] ∧ (State.reset.inst v).din = [] ∧ (State.reset.inst v).out = [] ∧
    (State.reset.inst v).sent = []) ∧
  State.reset.turns = []

/-! ### INIT -/

/-- R70: INIT from either phase: its word; with a valid length `H`, `BC`, `OUTLEN` and `PHASE` are written and the response is
`0x00`; with any other length nothing changes and the response is `0x01`. -/
def Obligations.InitEffect : Prop :=
  ∀ (s : State) (len : Arg) (c : Inst s.sel), s.inst s.sel = c → c.violation = none →
    encode (.init len) = 0x10000000#32 ||| len.setWidth 32 ∧
    ((s.sel = .core32 ∧ (len = 28 ∨ len = 32)) ∨
        (s.sel = .core64 ∧ (len = 28 ∨ len = 32 ∨ len = 48 ∨ len = 64)) →
      exec (.init len) s = .next (s.setInst s.sel
        { c with
          regs := { h := Config.iv s.sel len.toNat, bc := 0, outlen := BitVec.ofNat 7 len.toNat }
          phase := .active
          inProgress := none
          out := c.out ++ [.rsp 0x00#8] })) ∧
    (¬((s.sel = .core32 ∧ (len = 28 ∨ len = 32)) ∨
        (s.sel = .core64 ∧ (len = 28 ∨ len = 32 ∨ len = 48 ∨ len = 64))) →
      exec (.init len) s = .next (s.setInst s.sel
        { c with
          inProgress := none
          out := c.out ++ [.rsp 0x01#8] }))

/-- R73, R131: a failed INIT keeps `H`, `BC`, `OUTLEN` and `PHASE` in either phase, and a command after it does exactly what it
would have done without it: the only effect is one response beat `0x01`. "The same" leaves out registers that the command itself
leaves unspecified (R22). -/
def Obligations.FailedInitChangesNothing : Prop :=
  ∀ (s : State) (len : Arg) (i : Instr) (c : Inst s.sel), s.inst s.sel = c → c.violation = none →
    validLength s.sel len = false → c.inProgress = none →
    ∃ t, exec (.init len) s = .next t ∧
      t = s.setInst s.sel { c with out := c.out ++ [.rsp 0x01#8] } ∧
      (∀ f, exec i s = .fault f → exec i t = .fault f) ∧
      (∀ s', exec i s = .next s' → ∃ t' c' beats,
        s'.inst s.sel = c' ∧ c'.out = c.out ++ beats ∧ exec i t = .next t' ∧
        (s'.setInst s.sel { c' with out := c.out ++ [.rsp 0x01#8] ++ beats }).Agrees t')

/-- R76, R74: INIT reads nothing but `arg`: whatever the registers and the phase held, a successful INIT leaves the same state. -/
def Obligations.InitForgetsTheRegisters : Prop :=
  ∀ (s : State) (len : Arg) (r : Regs s.sel) (p : Phase) (c : Inst s.sel), s.inst s.sel = c →
    validLength s.sel len = true →
    exec (.init len) (s.setInst s.sel { c with regs := r, phase := p }) = exec (.init len) s

/-- R71: the initial vectors of one variant are pairwise distinct: two successful INITs with different lengths leave different
chaining values. -/
def Obligations.InitialVectorsDiffer : Prop :=
  ∀ (s : State) (a b : Arg), (s.inst s.sel).violation = none →
    validLength s.sel a = true → validLength s.sel b = true → a ≠ b →
    ∃ t u, exec (.init a) s = .next t ∧ exec (.init b) s = .next u ∧
      (t.inst s.sel).regs.h ≠ (u.inst s.sel).regs.h

/-! ### UPDATE -/

/-- R80, R83: UPDATE: its word; `CV3` in `IDLE`; in `ACTIVE`, with its payload on DIN, the blocks are compressed in order, `BC`
becomes `(BC + n) mod 2^CB`, the response is `0x00`, and `OUTLEN` and `PHASE` are unchanged. -/
def Obligations.UpdateEffect : Prop :=
  ∀ (s : State) (n : Arg) (c : Inst s.sel), s.inst s.sel = c → c.violation = none →
    encode (.update n) = 0x20000000#32 ||| n.setWidth 32 ∧
    (c.phase = .idle → exec (.update n) s = .fault .wrongPhase) ∧
    (c.phase = .active → n.toNat ≤ c.din.length →
      exec (.update n) s = .next (s.setInst s.sel
        { c with
          regs :=
            { h := ((c.din.take n.toNat).map (blockOfBeat s.sel)).foldl (Config.compress s.sel)
                c.regs.h
              bc := BitVec.ofNat _ ((c.regs.bc.toNat + n.toNat) % 2 ^ s.sel.counterBits)
              outlen := c.regs.outlen }
          inProgress := none
          din := c.din.drop n.toNat
          out := c.out ++ [.rsp 0x00#8] }))

/-- R45, R54: an UPDATE whose payload is not all on DIN is in progress and has no effect yet. That a payload is taken whole is the
model's choice (notes/assumptions/7.md). -/
def Obligations.UpdateWaitsForItsBlocks : Prop :=
  ∀ (s : State) (n : Arg) (c : Inst s.sel), s.inst s.sel = c → c.violation = none →
    c.phase = .active → c.din.length < n.toNat →
    exec (.update n) s = .next (s.setInst s.sel { c with inProgress := some (.update n) })

/-- R84: `UPDATE 0` is the word `0x20000000`; in `ACTIVE` it takes no beat, leaves `H` and `BC` unchanged and answers `0x00`; in
`IDLE` it is `CV3` like every UPDATE. -/
def Obligations.UpdateOfNoBlocks : Prop :=
  ∀ (s : State) (c : Inst s.sel), s.inst s.sel = c → c.violation = none →
    encode (.update 0) = 0x20000000#32 ∧
    (c.phase = .active → exec (.update 0) s = .next (s.setInst s.sel
      { c with inProgress := none, out := c.out ++ [.rsp 0x00#8] })) ∧
    (c.phase = .idle → exec (.update 0) s = .fault .wrongPhase)

/-- R85: one UPDATE leaves the same registers and the same rest of DIN as any UPDATEs that split its blocks, empty ones among
them. -/
def Obligations.UpdateSplitsAnyWay : Prop :=
  ∀ (s : State) (n : Arg) (split : List Arg),
    (s.inst s.sel).violation = none → (s.inst s.sel).phase = .active → n.toNat ≤ (s.inst s.sel).din.length →
    (split.map BitVec.toNat).sum = n.toNat →
    ∃ t u, exec (.update n) s = .next t ∧ runAll (split.map .update) s = .next u ∧
      (u.inst s.sel).regs = (t.inst s.sel).regs ∧ (u.inst s.sel).phase = (t.inst s.sel).phase ∧
      (u.inst s.sel).din = (t.inst s.sel).din ∧
      (u.inst s.sel).out = (s.inst s.sel).out ++ List.replicate split.length (.rsp 0x00#8)

/-! ### FINALIZE -/

/-- R90, R96, R99: FINALIZE: its word; `CV3` in `IDLE`, `CV4` for `pos ≥ B`; otherwise, with its buffer on DIN, the padded tail is
compressed from `H`, the first `OUTLEN` bytes of the serialized result are output after the response `0x00`, and the instance is
consumed: `PHASE = IDLE` and the registers hold some value. -/
def Obligations.FinalizeEffect : Prop :=
  ∀ (s : State) (pos : Arg) (c : Inst s.sel), s.inst s.sel = c → c.violation = none →
    encode (.finalize pos) = 0x30000000#32 ||| pos.setWidth 32 ∧
    (c.phase = .idle → exec (.finalize pos) s = .fault .wrongPhase) ∧
    (c.phase = .active → s.sel.blockBytes ≤ pos.toNat →
      exec (.finalize pos) s = .fault .fillOutOfRange) ∧
    ∀ (buf : DinBeat s.sel) (rest : List (DinBeat s.sel)) (tail : List Byte) (h : Hash s.sel),
      c.phase = .active → pos.toNat < s.sel.blockBytes → c.din = buf :: rest →
      tail = (blockOfBeat s.sel buf).val.take pos.toNat ++ [0x80] ++
        zeros ((s.sel.blockBytes + padMark s.sel - (pos.toNat + 1)) % s.sel.blockBytes) ++
        beBytes (lengthBytes s.sel)
          ((8 * (pos.toNat + s.sel.blockBytes * c.regs.bc.toNat)) % 2 ^ s.sel.counterBits) →
      h = (cut s.sel tail).foldl (Config.compress s.sel) c.regs.h →
      ∃ (r : Regs s.sel) (d : Nat),
        exec (.finalize pos) s = .next (s.setInst s.sel
          { c with
            regs := r
            phase := .idle
            draws := d
            inProgress := none
            din := rest
            out := c.out ++ .rsp 0x00#8 ::
              doutBeats ((h.words.flatMap fun x => beBytes s.sel.wordBytes x.toNat).take
                c.regs.outlen.toNat) })

/-- R45, R54: a FINALIZE whose buffer beat is not on DIN is in progress and has no effect yet. The form of the wait is the model's
choice (notes/assumptions/7.md). -/
def Obligations.FinalizeWaitsForItsBuffer : Prop :=
  ∀ (s : State) (pos : Arg) (c : Inst s.sel), s.inst s.sel = c → c.violation = none →
    c.phase = .active → pos.toNat < s.sel.blockBytes → c.din = [] →
    exec (.finalize pos) s = .next (s.setInst s.sel { c with inProgress := some (.finalize pos) })

/-- R91: the bit length is `(8 × (pos + B × BC)) mod 2^CB`, and it is the concatenation of the low bits of `BC`, `pos` and three
zero bits. -/
def Obligations.BitLengthIsConcatenation : Prop :=
  (∀ (v : Variant) (bc : Count v) (pos : Nat),
    (bitLength bc pos).toNat = (8 * (pos + v.blockBytes * bc.toNat)) % 2 ^ v.counterBits) ∧
  (∀ (bc : Count .core32) (pos : Nat), pos < 64 →
    (bitLength bc pos).toNat = (bc.extractLsb' 0 55 ++ BitVec.ofNat 6 pos ++ 0b000#3).toNat) ∧
  (∀ (bc : Count .core64) (pos : Nat), pos < 128 →
    (bitLength bc pos).toNat = (bc.extractLsb' 0 118 ++ BitVec.ofNat 7 pos ++ 0b000#3).toNat)

/-- R92, R156: for `pos < B` the encoded length is the exact one precisely when `BC < 2^55` (Core32) or `BC < 2^118` (Core64). -/
def Obligations.LengthExactBelowTheBound : Prop :=
  (∀ (bc : Count .core32) (pos : Nat), pos < 64 →
    ((8 * (pos + 64 * bc.toNat) < 2 ^ 64 ↔ bc.toNat < 2 ^ 55) ∧
      ((bitLength bc pos).toNat = 8 * (pos + 64 * bc.toNat) ↔ bc.toNat < 2 ^ 55))) ∧
  (∀ (bc : Count .core64) (pos : Nat), pos < 128 →
    ((8 * (pos + 128 * bc.toNat) < 2 ^ 128 ↔ bc.toNat < 2 ^ 118) ∧
      ((bitLength bc pos).toNat = 8 * (pos + 128 * bc.toNat) ↔ bc.toNat < 2 ^ 118)))

/-- R93: the padded tail is the message bytes, the delimiter, the least number of zero bytes that brings the fill to `PADMARK`
modulo `B`, and the big-endian bit length. -/
def Obligations.PaddingFillsToTheMark : Prop :=
  ∀ (v : Variant) (bc : Count v) (m : List Byte), m.length < v.blockBytes →
    ∃ z, padTail bc m = m ++ [0x80] ++ zeros z ++ beBytes (lengthBytes v) (bitLength bc m.length).toNat ∧
      z = (v.blockBytes + padMark v - (m.length + 1)) % v.blockBytes ∧ z < v.blockBytes ∧
      (m.length + 1 + z) % v.blockBytes = padMark v ∧
      ∀ z', (m.length + 1 + z') % v.blockBytes = padMark v → z ≤ z'

/-- R94: FINALIZE compresses one final block up to `pos = 55` (Core32) or 111 (Core64), and two from 56 or 112 on. -/
def Obligations.OneOrTwoFinalBlocks : Prop :=
  (∀ (bc : Count .core32) (m : List Byte), m.length < 64 →
    (m.length ≤ 55 → (padTail bc m).length = 64 ∧ (cut .core32 (padTail bc m)).length = 1) ∧
    (56 ≤ m.length → (padTail bc m).length = 128 ∧ (cut .core32 (padTail bc m)).length = 2)) ∧
  (∀ (bc : Count .core64) (m : List Byte), m.length < 128 →
    (m.length ≤ 111 → (padTail bc m).length = 128 ∧ (cut .core64 (padTail bc m)).length = 1) ∧
    (112 ≤ m.length → (padTail bc m).length = 256 ∧ (cut .core64 (padTail bc m)).length = 2))

/-- R95: the layout of the final blocks. -/
def Obligations.FinalBlockLayout : Prop :=
  ∀ (v : Variant) (bc : Count v) (m : List Byte), m.length < v.blockBytes →
    (m.length + 1 ≤ padMark v →
      (cut v (padTail bc m)).map Subtype.val =
        [m ++ [0x80] ++ zeros (padMark v - 1 - m.length) ++
          beBytes (lengthBytes v) (bitLength bc m.length).toNat]) ∧
    (padMark v ≤ m.length →
      (cut v (padTail bc m)).map Subtype.val =
        [m ++ [0x80] ++ zeros (v.blockBytes - 1 - m.length),
          zeros (padMark v) ++ beBytes (lengthBytes v) (bitLength bc m.length).toNat])

/-- R97: `S` has `SB` bytes, and byte `S[WB·i + j]` is bits `[8(WB−1−j)+7 : 8(WB−1−j)]` of `H[i]`. -/
def Obligations.SerializationIsBigEndian : Prop :=
  ∀ (v : Variant) (h : Hash v),
    (serialize h).length = stateBytes v ∧
    ∀ (i j : Nat) (x : Word v), h.words[i]? = some x → j < v.wordBytes →
      (serialize h)[v.wordBytes * i + j]? = some (x.extractLsb' (8 * (v.wordBytes - 1 - j)) 8)

/-- R98: which words of the final state each output length keeps; the SHA-512/224 cut falls inside `H[3]` and keeps its most
significant half. -/
def Obligations.TruncationKeepsTheLeft : Prop :=
  (∀ h : Hash .core32,
    digest h 28 = (h.words.take 7).flatMap (fun x => beBytes 4 x.toNat) ∧ (digest h 28).length = 28 ∧
    digest h 32 = h.words.flatMap (fun x => beBytes 4 x.toNat) ∧ (digest h 32).length = 32) ∧
  (∀ h : Hash .core64,
    digest h 64 = h.words.flatMap (fun x => beBytes 8 x.toNat) ∧ (digest h 64).length = 64 ∧
    digest h 48 = (h.words.take 6).flatMap (fun x => beBytes 8 x.toNat) ∧ (digest h 48).length = 48 ∧
    digest h 32 = (h.words.take 4).flatMap (fun x => beBytes 8 x.toNat) ∧ (digest h 32).length = 32 ∧
    digest h 28 = (h.words.take 3).flatMap (fun x => beBytes 8 x.toNat) ++ beBytes 4 (h.h3.extractLsb' 32 32).toNat ∧
    (digest h 28).length = 28)

/-- R100: two cores with equal `H`, equal `BC` and output lengths `a` and `b` that receive the same FINALIZE output digests that
agree on the first `min(a, b)` bytes. -/
def Obligations.DigestsArePrefixes : Prop :=
  ∀ (s : State) (pos : Arg) (b : BitVec 7) (c : Inst s.sel), s.inst s.sel = c → c.violation = none →
    c.phase = .active → pos.toNat < s.sel.blockBytes → c.din ≠ [] →
    c.regs.outlen.toNat ∈ validLengths s.sel → b.toNat ∈ validLengths s.sel →
    ∃ t u da db,
      exec (.finalize pos) s = .next t ∧
      exec (.finalize pos) (s.setInst s.sel
        { c with regs := { c.regs with outlen := b } }) = .next u ∧
      (t.inst s.sel).out = c.out ++ .rsp 0x00#8 :: doutBeats da ∧
      (u.inst s.sel).out = c.out ++ .rsp 0x00#8 :: doutBeats db ∧
      da.length = c.regs.outlen.toNat ∧ db.length = b.toNat ∧ (da <+: db ∨ db <+: da)

/-- R101, R93: FINALIZE does not depend on the bytes of its buffer from index `pos` on: the outcome is the same, up to the
registers it leaves unspecified (R22). -/
def Obligations.FinalizeIgnoresTheTail : Prop :=
  ∀ (s : State) (pos : Arg) (a b : DinBeat s.sel) (rest : List (DinBeat s.sel)) (c : Inst s.sel), s.inst s.sel = c →
    (blockOfBeat s.sel a).val.take pos.toNat = (blockOfBeat s.sel b).val.take pos.toNat →
    OutcomesAgree (exec (.finalize pos) (s.setInst s.sel { c with din := a :: rest }))
      (exec (.finalize pos) (s.setInst s.sel { c with din := b :: rest }))

/-- R99, R157: once FINALIZE has executed, UPDATE, FINALIZE and SNAPSHOT are `CV3`, with any operand, until an INIT. The fault is
the model's form of the violation (notes/assumptions/6.md). -/
def Obligations.FinalizeHappensOnce : Prop :=
  ∀ (s t : State) (pos : Arg), exec (.finalize pos) s = .next t → (t.inst s.sel).inProgress = none →
    (t.inst s.sel).phase = .idle ∧
    ∀ a : Arg, exec (.update a) t = .fault .wrongPhase ∧ exec (.finalize a) t = .fault .wrongPhase ∧
      exec (.snapshot a) t = .fault .wrongPhase

/-! ### SNAPSHOT -/

/-- R110: SNAPSHOT: its word; `CV3` in `IDLE`, `CV5` for `arg ≠ 0`; otherwise it outputs `Ser(H) ++ BE_L(BC) ++ [OUTLEN]`, 41 or
81 bytes, after the response `0x00`, and changes no register. -/
def Obligations.SnapshotEffect : Prop :=
  ∀ (s : State) (arg : Arg) (c : Inst s.sel), s.inst s.sel = c → c.violation = none →
    encode (.snapshot 0) = 0x40000000#32 ∧
    (c.phase = .idle → exec (.snapshot arg) s = .fault .wrongPhase) ∧
    (c.phase = .active → arg ≠ 0 → exec (.snapshot arg) s = .fault .snapshotOperand) ∧
    (c.phase = .active → arg = 0 →
      ∃ bytes : List Byte,
        bytes = (c.regs.h.words.flatMap fun x => beBytes s.sel.wordBytes x.toNat) ++
          beBytes (lengthBytes s.sel) c.regs.bc.toNat ++
          [BitVec.ofNat 8 c.regs.outlen.toNat] ∧
        bytes.length = snapBytes s.sel ∧
        exec (.snapshot arg) s = .next (s.setInst s.sel
          { c with
            inProgress := none
            out := c.out ++ .rsp 0x00#8 :: doutBeats bytes }))

/-- R111: a command after a SNAPSHOT does exactly what it would have done without it, up to registers that the command itself
leaves unspecified (R22), and directly after a successful `INIT len` the SNAPSHOT outputs `Ser(IV_W(len)) ++ zeros(L) ++ [len]`.
-/
def Obligations.SnapshotIsReadOnly : Prop :=
  (∀ (s t : State) (i : Instr),
    exec (.snapshot 0) s = .next t → (s.inst s.sel).inProgress = none →
    (t.inst s.sel).regs = (s.inst s.sel).regs ∧ (t.inst s.sel).phase = (s.inst s.sel).phase ∧
    (∀ f, exec i s = .fault f → exec i t = .fault f) ∧
    (∀ s', exec i s = .next s' → ∃ t' c' beats,
      s'.inst s.sel = c' ∧ c'.out = (s.inst s.sel).out ++ beats ∧ exec i t = .next t' ∧
      (s'.setInst s.sel { c' with out := (t.inst s.sel).out ++ beats }).Agrees t')) ∧
  (∀ (s : State) (len : Arg), (s.inst s.sel).violation = none → validLength s.sel len = true →
    ∃ t, runAll [.init len, .snapshot 0] s = .next t ∧
      (t.inst s.sel).out = (s.inst s.sel).out ++ [.rsp 0x00#8, .rsp 0x00#8] ++
        doutBeats (((Config.iv s.sel len.toNat).words.flatMap fun x => beBytes s.sel.wordBytes x.toNat) ++
          zeros (lengthBytes s.sel) ++ [BitVec.ofNat 8 len.toNat]))

/-! ### All commands -/

/-- R132, R133: a command ends in a fault exactly when it is one of the contract violations `CV3`, `CV4`, `CV5` or one stands
already, and otherwise it answers a next state; no command is refused. The fault is the model's form of the violation
(notes/assumptions/6.md); a command that waits for payload answers a next state (7.md). -/
def Obligations.CommandsFaultOnlyOnViolations : Prop :=
  ∀ (i : Instr) (s : State),
    ((∃ t, exec i s = .next t) ↔
      (s.inst s.sel).violation = none ∧
      ((∃ len, i = .init len) ∨
        ((s.inst s.sel).phase = .active ∧
          ((∃ n, i = .update n) ∨ (∃ pos, i = .finalize pos ∧ pos.toNat < s.sel.blockBytes) ∨ i = .snapshot 0)))) ∧
    (∀ r, exec i s ≠ .refused r)

/-- R11, R14, R15, R140: the frame of the four commands. Every command leaves the other core, the turns to come, the command words
offered, the beats already transferred and the host's readiness as they were; UPDATE leaves `OUTLEN` and `PHASE`, SNAPSHOT leaves
every register and `PHASE`; INIT and SNAPSHOT leave DIN. The port queues, the host's moves and `draws` are the model's own fields
(notes/assumptions/1.md, 2.md, 4.md). -/
def Obligations.CommandFrame : Prop :=
  ∀ (i : Instr) (s t : State), exec i s = .next t →
    t.sel = s.sel ∧ t.turns = s.turns ∧ (∀ u, u ≠ s.sel → t.inst u = s.inst u) ∧
    (t.inst s.sel).violation = (s.inst s.sel).violation ∧ (t.inst s.sel).cmd = (s.inst s.sel).cmd ∧
    (t.inst s.sel).sent = (s.inst s.sel).sent ∧
    (t.inst s.sel).rspReady = (s.inst s.sel).rspReady ∧ (t.inst s.sel).doutReady = (s.inst s.sel).doutReady ∧
    (s.inst s.sel).out <+: (t.inst s.sel).out ∧
    ((∀ pos, i ≠ .finalize pos) → (t.inst s.sel).draws = (s.inst s.sel).draws) ∧
    (∀ n, i = .update n →
      (t.inst s.sel).regs.outlen = (s.inst s.sel).regs.outlen ∧ (t.inst s.sel).phase = (s.inst s.sel).phase) ∧
    (∀ a, i = .snapshot a →
      (t.inst s.sel).regs = (s.inst s.sel).regs ∧ (t.inst s.sel).phase = (s.inst s.sel).phase ∧
        (t.inst s.sel).din = (s.inst s.sel).din) ∧
    (∀ len, i = .init len → (t.inst s.sel).din = (s.inst s.sel).din)

/-- R34, R38, R56: a command that has executed has added exactly one response code, `0x00` or, only for an INIT with an invalid
length, `0x01`, then its output bytes: none for INIT and UPDATE, `OUTLEN` for FINALIZE, `SNAPLEN` for SNAPSHOT; it has taken
exactly its payload from DIN. A command that waits has added and taken nothing. That a payload is taken whole is the model's
choice (notes/assumptions/7.md). -/
def Obligations.OneResponsePerCommand : Prop :=
  ∀ (i : Instr) (s t : State), exec i s = .next t →
    ((t.inst s.sel).inProgress = some i ∧ (t.inst s.sel).out = (s.inst s.sel).out ∧
      (t.inst s.sel).din = (s.inst s.sel).din ∧ (s.inst s.sel).din.length < i.payload) ∨
    ((t.inst s.sel).inProgress = none ∧ (t.inst s.sel).din = (s.inst s.sel).din.drop i.payload ∧
      i.payload ≤ (s.inst s.sel).din.length ∧
      ∃ (code : BitVec 8) (bytes : List Byte),
        (t.inst s.sel).out = (s.inst s.sel).out ++ .rsp code :: doutBeats bytes ∧
        (code = 0x00#8 ∨ code = 0x01#8) ∧
        (code = 0x01#8 ↔ ∃ len, i = .init len ∧ validLength s.sel len = false) ∧
        (∀ a, i = .init a ∨ i = .update a → bytes = []) ∧
        (∀ a, i = .finalize a → (s.inst s.sel).regs.outlen.toNat ∈ validLengths s.sel →
          bytes.length = (s.inst s.sel).regs.outlen.toNat) ∧
        (∀ a, i = .snapshot a → bytes.length = snapBytes s.sel))

/-- R35: a byte sequence goes out one byte a beat in index order, `last` on the final byte only. -/
def Obligations.LastMarksTheFinalByte : Prop :=
  ∀ (bytes : List Byte),
    (doutBeats bytes).length = bytes.length ∧
    ∀ (k : Nat) (b : Byte), bytes[k]? = some b → (doutBeats bytes)[k]? = some (.dout b (k + 1 == bytes.length))

/-- R33, R36: byte `d[i]` of a DIN beat is `DIN[8(B−1−i)+7 : 8(B−1−i)]`, the block has `B` bytes, and `DIN = be(d)`. -/
def Obligations.DinByteOrder : Prop :=
  ∀ (v : Variant) (beat : DinBeat v),
    (blockOfBeat v beat).val.length = v.blockBytes ∧
    (∀ k, k < v.blockBytes →
      (blockOfBeat v beat).val[k]? = some (beat.extractLsb' (8 * (v.blockBytes - 1 - k)) 8)) ∧
    beNat (blockOfBeat v beat).val = beat.toNat

/-- R22: while `PHASE = IDLE` no command reads `H`, `BC` or `OUTLEN`: with other values there it ends in the same fault, or, INIT,
in the same state, up to the registers it leaves unwritten. The fault is the model's form of the violation
(notes/assumptions/6.md). -/
def Obligations.IdleRegistersAreNeverRead : Prop :=
  ∀ (i : Instr) (s : State) (r : Regs s.sel) (c : Inst s.sel), s.inst s.sel = c → c.phase = .idle →
    (∀ f, exec i s = .fault f → exec i (s.setInst s.sel { c with regs := r }) = .fault f) ∧
    (∀ t, exec i s = .next t →
      exec i (s.setInst s.sel { c with regs := r }) = .next t ∨
      ∃ c', t.inst s.sel = c' ∧ c'.regs = c.regs ∧
        exec i (s.setInst s.sel { c with regs := r }) = .next (t.setInst s.sel { c' with regs := r }))

/-! ### The device over its steps -/

/-- R12, R15: every step keeps the chaining invariant of both cores. -/
def Obligations.StepKeepsTheChain : Prop :=
  ∀ s t : State, s.Chained params → step s = .next t → t.Chained params

/-- R12: the chaining invariant holds right after reset. -/
def Obligations.ResetIsChained : Prop := State.reset.Chained params

/-- R34, R35, R42, R56: every step keeps the form of both cores' ports: what is left to transfer is one response, with one of the
two codes of Table Q and `last` on its final byte, and only an accepted command with a payload is ever waited for. The ports as
queues are the model's choice (notes/assumptions/2.md, 7.md). For a core on which a violation stands or is recorded in this step,
where R133 lets the hardware put anything on its ports, the form is that of the model's idle core (6.md). -/
def Obligations.StepKeepsThePorts : Prop :=
  ∀ s t : State, s.PortsInOrder → step s = .next t → t.PortsInOrder

/-- R152: the port form holds right after reset. The ports as queues are the model's choice (notes/assumptions/2.md). -/
def Obligations.ResetPortsInOrder : Prop := State.reset.PortsInOrder

/-- R18, Table T: the phase of a core changes in a step only by a successful INIT (to `ACTIVE`), a FINALIZE or a RESET (to
`IDLE`), where no violation stands after it (R133: then `PHASE` may be anything, notes/assumptions/6.md). The host's moves in the
state are the model's choice (notes/assumptions/2.md). -/
def Obligations.PhaseTransitions : Prop :=
  ∀ (s t : State) (v : Variant), step s = .next t → (t.inst v).violation = none →
    (t.inst v).phase ≠ (s.inst v).phase →
    ((t.inst v).phase = .active ∧ ∃ len, s.executes = some (v, .init len) ∧ validLength v len = true) ∨
    ((t.inst v).phase = .idle ∧
      ((∃ pos, s.executes = some (v, .finalize pos)) ∨ s.turn = some (.host ⟨v, .reset⟩)))

/-- R140: commands to the two cores commute: run on either core first, they leave the same cores, up to registers left unspecified
(R22). One core of each variant is the model's choice (notes/assumptions/1.md). -/
def Obligations.CoresAreIndependent : Prop :=
  ∀ (s s1 s2 : State) (i j : Instr),
    exec i { s with sel := .core32 } = .next s1 → exec j { s1 with sel := .core64 } = .next s2 →
    ∃ t1 t2, exec j { s with sel := .core64 } = .next t1 ∧ exec i { t1 with sel := .core32 } = .next t2 ∧
      t2.turns = s2.turns ∧
      ∀ v, (s2.inst v).Agrees (t2.inst v)

/-- R59, R82: for every message shorter than the length bound, every split of its blocks over UPDATEs and every fill of the last
beat, the commands of HASH output, after the `0x00` of each command, the first `len` bytes of the serialized fold of `Compress`
over the blocks of the padded message, from the initial vector of `len`. -/
def Obligations.HashOutputsTheDigest : Prop :=
  ∀ (s : State) (len : Arg) (M fill : List Byte) (split : List Arg) (rest : List (DinBeat s.sel)),
    (s.inst s.sel).violation = none → validLength s.sel len = true →
    8 * M.length < 2 ^ s.sel.counterBits →
    (split.map BitVec.toNat).sum = M.length / s.sel.blockBytes →
    M.length % s.sel.blockBytes + fill.length = s.sel.blockBytes →
    (s.inst s.sel).din = hashBeats s.sel M fill ++ rest →
    ∃ t, runAll (hashCommands s.sel len split M) s = .next t ∧
      (t.inst s.sel).out = (s.inst s.sel).out ++ List.replicate (split.length + 2) (.rsp 0x00#8) ++
        doutBeats (((compressAll params (Config.iv s.sel len.toNat) (cut s.sel (padMessage s.sel M))).words.flatMap
          fun x => beBytes s.sel.wordBytes x.toNat).take len.toNat) ∧
      (t.inst s.sel).phase = .idle ∧ (t.inst s.sel).din = rest
end

