-- ==== Sys2Proof/Laws/Bytes.lean ====
section
/-! SUPPORT. What the byte-order helpers and the cutting of byte lists into blocks give. -/

namespace Sys2Proof.Machine

@[simp] theorem zeros_length (n : Nat) : (zeros n).length = n := by simp [zeros]

@[simp] theorem beBytes_length (n x : Nat) : (beBytes n x).length = n := by
  induction n with
  | zero => rfl
  | succ n ih => simp [beBytes, ih]

/-- `BE_n(x)[i]` is bits `[8(n−1−i)+7 : 8(n−1−i)]` of `x`. -/
theorem beBytes_getElem? (n x i : Nat) (h : i < n) :
    (beBytes n x)[i]? = some (BitVec.ofNat 8 (x >>> (8 * (n - 1 - i)))) := by
  induction n generalizing i with
  | zero => omega
  | succ n ih =>
    cases i with
    | zero => simp [beBytes]
    | succ i =>
      have := ih i (by omega)
      have e : n - (i + 1) = n - 1 - i := by omega
      simp [beBytes, this, e]

theorem foldl_beNat (s : List Byte) (a : Nat) :
    s.foldl (fun acc b => 256 * acc + b.toNat) a = a * 256 ^ s.length + beNat s := by
  induction s generalizing a with
  | nil => simp [beNat]
  | cons b s ih =>
    have hb : beNat (b :: s) = b.toNat * 256 ^ s.length + beNat s := by
      rw [beNat, List.foldl_cons, ih]
      simp
    rw [List.foldl_cons, ih, hb, List.length_cons, pow_succ]
    ring

theorem beNat_cons (b : Byte) (s : List Byte) : beNat (b :: s) = b.toNat * 256 ^ s.length + beNat s := by
  rw [beNat, List.foldl_cons, foldl_beNat]
  simp

/-- `be` undoes `BE_n` on the low `8n` bits. -/
theorem beNat_beBytes (n x : Nat) : beNat (beBytes n x) = x % 256 ^ n := by
  induction n with
  | zero => simp [beBytes, beNat, Nat.mod_one]
  | succ n ih =>
    have hp : (2 : Nat) ^ (8 * n) = 256 ^ n := by rw [pow_mul]; norm_num
    rw [beBytes, beNat_cons, beBytes_length, ih, BitVec.toNat_ofNat, Nat.shiftRight_eq_div_pow, hp,
      pow_succ 256 n, Nat.mod_mul (x := x) (a := 256 ^ n) (b := 256)]
    ring

theorem beNat_lt (s : List Byte) : beNat s < 256 ^ s.length := by
  induction s with
  | nil => simp [beNat]
  | cons b s ih =>
    rw [beNat_cons, List.length_cons, pow_succ]
    have := b.isLt
    nlinarith

/-- `BE_n` undoes `be` on a list of `n` bytes. -/
theorem beBytes_beNat (s : List Byte) : beBytes s.length (beNat s) = s := by
  induction s with
  | nil => rfl
  | cons b s ih =>
    have hlow : ∀ n x y : Nat, beBytes n (x * 256 ^ n + y) = beBytes n y := by
      intro n x y
      refine List.ext_getElem? fun i => ?_
      rcases Nat.lt_or_ge i n with h | h
      · rw [beBytes_getElem? _ _ _ h, beBytes_getElem? _ _ _ h]
        congr 1
        apply BitVec.eq_of_toNat_eq
        have e : (256 : Nat) ^ n = 2 ^ (8 * (n - 1 - i)) * (2 ^ 8 * 256 ^ i) := by
          have : (256 : Nat) = 2 ^ 8 := by norm_num
          rw [this, ← pow_mul, ← pow_mul, ← pow_add, ← pow_add]
          congr 1
          omega
        simp only [BitVec.toNat_ofNat, Nat.shiftRight_eq_div_pow]
        rw [e, show x * (2 ^ (8 * (n - 1 - i)) * (2 ^ 8 * 256 ^ i)) + y
            = y + 2 ^ (8 * (n - 1 - i)) * (2 ^ 8 * (x * 256 ^ i)) by ring,
          Nat.add_mul_div_left _ _ (by positivity), Nat.add_mul_mod_self_left]
      · rw [List.getElem?_eq_none (by simpa using h), List.getElem?_eq_none (by simpa using h)]
    rw [List.length_cons, beBytes, beNat_cons, hlow, ih]
    congr 1
    apply BitVec.eq_of_toNat_eq
    have hp : (2 : Nat) ^ (8 * s.length) = 256 ^ s.length := by rw [pow_mul]; norm_num
    rw [BitVec.toNat_ofNat, Nat.shiftRight_eq_div_pow, hp, Nat.add_comm, Nat.add_mul_div_right _ _ (by positivity),
      Nat.div_eq_of_lt (beNat_lt s), Nat.zero_add]
    exact Nat.mod_eq_of_lt b.isLt

theorem blockBytes_pos (v : Variant) : 0 < v.blockBytes := by cases v <;> decide

/-- A block made from at least `B` bytes holds the first `B` of them. -/
theorem blockOf_val {v : Variant} {s : List Byte} (h : v.blockBytes ≤ s.length) :
    (blockOf v s).val = s.take v.blockBytes := by
  simp [blockOf, List.take_append, Nat.sub_eq_zero_of_le h]

theorem blockOf_val_self {v : Variant} (b : Block v) : blockOf v b.val = b := by
  apply Subtype.ext
  rw [blockOf_val b.property.ge]
  exact List.take_of_length_le b.property.le

/-- R33: the beat that carries a block gives the block back. -/
theorem blockOfBeat_beatOfBlock {v : Variant} (b : Block v) : blockOfBeat v (beatOfBlock v b) = b := by
  have hb := b.property
  have hlt : beNat b.val < 2 ^ (8 * v.blockBytes) := by
    have := beNat_lt b.val
    rw [hb] at this
    rw [pow_mul]
    exact this
  have hbytes : beBytes v.blockBytes (beNat b.val) = b.val := by
    have := beBytes_beNat b.val
    rwa [hb] at this
  rw [blockOfBeat, beatOfBlock, BitVec.toNat_ofNat, Nat.mod_eq_of_lt hlt, hbytes, blockOf_val_self]

@[simp] theorem blocksOf_length (v : Variant) (k : Nat) (s : List Byte) : (blocksOf v k s).length = k := by
  induction k generalizing s with
  | zero => rfl
  | succ k ih => simp [blocksOf, ih]

/-- The blocks of a list depend on its first bytes only. -/
theorem blocksOf_append (v : Variant) (k : Nat) (s t : List Byte) (h : k * v.blockBytes ≤ s.length) :
    blocksOf v k (s ++ t) = blocksOf v k s := by
  induction k generalizing s with
  | zero => rfl
  | succ k ih =>
    have hB : v.blockBytes ≤ s.length := by nlinarith
    have hd : k * v.blockBytes ≤ (s.drop v.blockBytes).length := by
      rw [List.length_drop, Nat.le_sub_iff_add_le hB]
      linarith
    rw [blocksOf, blocksOf, List.drop_append_of_le_length hB, ih _ hd]
    congr 1
    apply Subtype.ext
    rw [blockOf_val (by simp; omega), blockOf_val hB, List.take_append_of_le_length hB]

theorem blocksOf_add (v : Variant) (j k : Nat) (s : List Byte) :
    blocksOf v (j + k) s = blocksOf v j s ++ blocksOf v k (s.drop (j * v.blockBytes)) := by
  induction j generalizing s with
  | zero => simp [blocksOf]
  | succ j ih =>
    rw [show j + 1 + k = j + k + 1 by omega, blocksOf, blocksOf, ih, List.drop_drop, List.cons_append,
      show v.blockBytes + j * v.blockBytes = (j + 1) * v.blockBytes by ring]

@[simp] theorem cut_length (v : Variant) (s : List Byte) : (cut v s).length = s.length / v.blockBytes := by
  simp [cut]

/-- Cutting after some whole blocks of bytes cuts the rest on its own. -/
theorem cut_append (v : Variant) (k : Nat) (s t : List Byte) (h : s.length = k * v.blockBytes) :
    cut v (s ++ t) = cut v s ++ cut v t := by
  have hB := blockBytes_pos v
  rw [cut, cut, cut, List.length_append, h, Nat.add_comm, Nat.add_mul_div_right _ _ hB, Nat.add_comm,
    Nat.mul_div_cancel _ hB, blocksOf_add, blocksOf_append _ _ _ _ h.ge, ← h, List.drop_left]

/-- A list of exactly `B` bytes is cut into one block. -/
theorem cut_one {v : Variant} {s : List Byte} (h : s.length = v.blockBytes) : cut v s = [⟨s, h⟩] := by
  rw [cut, h, Nat.div_self (blockBytes_pos v), blocksOf, blocksOf]
  congr 1
  exact blockOf_val_self ⟨s, h⟩

end Sys2Proof.Machine
end

