-- ==== Sys2Proof/Laws/Decode.lean ====
section
/-! SUPPORT. The fields of an encoded command. -/

namespace Sys2Proof

@[simp] theorem rsvField_append (op : BitVec 4) (a : Arg) : rsvField (op ++ (0 : BitVec 4) ++ a) = 0 := by
  apply BitVec.eq_of_getLsbD_eq
  intro i hi
  simp only [rsvField, BitVec.getLsbD_extractLsb', BitVec.getLsbD_append]
  simp [hi, show ¬(24 + i < 24) by omega]

@[simp] theorem opField_append (op : BitVec 4) (a : Arg) : opField (op ++ (0 : BitVec 4) ++ a) = op := by
  apply BitVec.eq_of_getLsbD_eq
  intro i hi
  simp only [opField, BitVec.getLsbD_extractLsb', BitVec.getLsbD_append]
  simp [hi, show ¬(28 + i < 24) by omega, show ¬(28 + i - 24 < 4) by omega, show 28 + i - 24 - 4 = i by omega]

@[simp] theorem argField_append (op : BitVec 4) (a : Arg) : argField (op ++ (0 : BitVec 4) ++ a) = a := by
  apply BitVec.eq_of_getLsbD_eq
  intro i hi
  simp only [argField, BitVec.getLsbD_extractLsb', BitVec.getLsbD_append]
  simp [hi]

@[simp] theorem rsvField_encode (i : Instr) : rsvField (encode i) = 0 := rsvField_append _ _

@[simp] theorem opField_encode (i : Instr) : opField (encode i) = i.opcode := opField_append _ _

@[simp] theorem argField_encode (i : Instr) : argField (encode i) = i.arg := argField_append _ _

/-- A word is its three fields. -/
theorem word_eq_fields (w : CmdWord) : opField w ++ rsvField w ++ argField w = w := by
  apply BitVec.eq_of_getLsbD_eq
  intro i hi
  simp only [opField, rsvField, argField, BitVec.getLsbD_append, BitVec.getLsbD_extractLsb']
  split
  · next h => simp [h]
  · next h =>
    split
    · next h' => simp [h', show 24 + (i - 24) = i by omega]
    · next h' => simp [show i - 24 - 4 < 4 by omega, show 28 + (i - 24 - 4) = i by omega]

end Sys2Proof
end

