-- ==== Sys2Proof/Laws/State.lean ====
section
/-! SUPPORT. The state's small lemmas: one per field per update, and the laws of the two cores of the device. -/

namespace Sys2Proof.Machine

section Device

variable (s : State) (v u : Variant) (c d : Inst v)

@[simp] theorem State.inst_setInst : (s.setInst v c).inst v = c := by cases v <;> rfl

theorem State.inst_setInst_of_ne {v u : Variant} (h : u ≠ v) (c : Inst v) : (s.setInst v c).inst u = s.inst u := by
  cases v <;> cases u <;> first | rfl | exact absurd rfl h

@[simp] theorem State.setInst_inst : s.setInst v (s.inst v) = s := by cases v <;> rfl

@[simp] theorem State.setInst_setInst : (s.setInst v c).setInst v d = s.setInst v d := by cases v <;> rfl

@[simp] theorem State.setInst_sel : (s.setInst v c).sel = s.sel := by cases v <;> rfl

@[simp] theorem State.setInst_turns : (s.setInst v c).turns = s.turns := by cases v <;> rfl

@[simp] theorem State.inst_core32 : s.inst .core32 = s.core32 := rfl

@[simp] theorem State.inst_core64 : s.inst .core64 = s.core64 := rfl

@[simp] theorem State.select_sel : (s.select v).sel = v := rfl

@[simp] theorem State.select_turns : (s.select v).turns = s.turns := rfl

@[simp] theorem State.select_inst : (s.select v).inst u = s.inst u := by cases u <;> rfl

@[simp] theorem State.takeCmd_sel : (s.takeCmd v).sel = v := by cases v <;> rfl

@[simp] theorem State.takeCmd_turns : (s.takeCmd v).turns = s.turns := by cases v <;> rfl

@[simp] theorem State.takeCmd_inst : (s.takeCmd v).inst v = (s.inst v).takeCmd := by cases v <;> rfl

theorem State.takeCmd_inst_of_ne {v u : Variant} (h : u ≠ v) : (s.takeCmd v).inst u = s.inst u := by
  cases v <;> cases u <;> first | rfl | exact absurd rfl h

@[simp] theorem State.dropTurn_inst : s.dropTurn.inst u = s.inst u := by cases u <;> rfl

@[simp] theorem State.dropTurn_sel : s.dropTurn.sel = s.sel := rfl

@[simp] theorem State.dropTurn_turns : s.dropTurn.turns = s.turns.tail := rfl

end Device

section Core

variable {v : Variant} (c : Inst v)

/-! Fields after `rspPut`. -/

@[simp] theorem Inst.rspPut_regs (code : BitVec 8) : (c.rspPut code).regs = c.regs := rfl

@[simp] theorem Inst.rspPut_phase (code : BitVec 8) : (c.rspPut code).phase = c.phase := rfl

@[simp] theorem Inst.rspPut_draws (code : BitVec 8) : (c.rspPut code).draws = c.draws := rfl

@[simp] theorem Inst.rspPut_violation (code : BitVec 8) : (c.rspPut code).violation = c.violation := rfl

@[simp] theorem Inst.rspPut_inProgress (code : BitVec 8) : (c.rspPut code).inProgress = c.inProgress := rfl

@[simp] theorem Inst.rspPut_cmd (code : BitVec 8) : (c.rspPut code).cmd = c.cmd := rfl

@[simp] theorem Inst.rspPut_din (code : BitVec 8) : (c.rspPut code).din = c.din := rfl

@[simp] theorem Inst.rspPut_out (code : BitVec 8) : (c.rspPut code).out = c.out ++ [.rsp code] := rfl

@[simp] theorem Inst.rspPut_rspReady (code : BitVec 8) : (c.rspPut code).rspReady = c.rspReady := rfl

@[simp] theorem Inst.rspPut_doutReady (code : BitVec 8) : (c.rspPut code).doutReady = c.doutReady := rfl

@[simp] theorem Inst.rspPut_sent (code : BitVec 8) : (c.rspPut code).sent = c.sent := rfl

/-! Fields after `doutPut`. -/

@[simp] theorem Inst.doutPut_regs (bytes : List Byte) : (c.doutPut bytes).regs = c.regs := rfl

@[simp] theorem Inst.doutPut_phase (bytes : List Byte) : (c.doutPut bytes).phase = c.phase := rfl

@[simp] theorem Inst.doutPut_draws (bytes : List Byte) : (c.doutPut bytes).draws = c.draws := rfl

@[simp] theorem Inst.doutPut_violation (bytes : List Byte) : (c.doutPut bytes).violation = c.violation := rfl

@[simp] theorem Inst.doutPut_inProgress (bytes : List Byte) : (c.doutPut bytes).inProgress = c.inProgress := rfl

@[simp] theorem Inst.doutPut_cmd (bytes : List Byte) : (c.doutPut bytes).cmd = c.cmd := rfl

@[simp] theorem Inst.doutPut_din (bytes : List Byte) : (c.doutPut bytes).din = c.din := rfl

@[simp] theorem Inst.doutPut_out (bytes : List Byte) : (c.doutPut bytes).out = c.out ++ doutBeats bytes := rfl

@[simp] theorem Inst.doutPut_rspReady (bytes : List Byte) : (c.doutPut bytes).rspReady = c.rspReady := rfl

@[simp] theorem Inst.doutPut_doutReady (bytes : List Byte) : (c.doutPut bytes).doutReady = c.doutReady := rfl

@[simp] theorem Inst.doutPut_sent (bytes : List Byte) : (c.doutPut bytes).sent = c.sent := rfl

/-! Fields after `dinDrop`. -/

@[simp] theorem Inst.dinDrop_regs (n : Nat) : (c.dinDrop n).regs = c.regs := rfl

@[simp] theorem Inst.dinDrop_phase (n : Nat) : (c.dinDrop n).phase = c.phase := rfl

@[simp] theorem Inst.dinDrop_draws (n : Nat) : (c.dinDrop n).draws = c.draws := rfl

@[simp] theorem Inst.dinDrop_violation (n : Nat) : (c.dinDrop n).violation = c.violation := rfl

@[simp] theorem Inst.dinDrop_inProgress (n : Nat) : (c.dinDrop n).inProgress = c.inProgress := rfl

@[simp] theorem Inst.dinDrop_cmd (n : Nat) : (c.dinDrop n).cmd = c.cmd := rfl

@[simp] theorem Inst.dinDrop_din (n : Nat) : (c.dinDrop n).din = c.din.drop n := rfl

@[simp] theorem Inst.dinDrop_out (n : Nat) : (c.dinDrop n).out = c.out := rfl

@[simp] theorem Inst.dinDrop_rspReady (n : Nat) : (c.dinDrop n).rspReady = c.rspReady := rfl

@[simp] theorem Inst.dinDrop_doutReady (n : Nat) : (c.dinDrop n).doutReady = c.doutReady := rfl

@[simp] theorem Inst.dinDrop_sent (n : Nat) : (c.dinDrop n).sent = c.sent := rfl

/-! Fields after `finish`. -/

@[simp] theorem Inst.finish_regs : (c.finish).regs = c.regs := rfl

@[simp] theorem Inst.finish_phase : (c.finish).phase = c.phase := rfl

@[simp] theorem Inst.finish_draws : (c.finish).draws = c.draws := rfl

@[simp] theorem Inst.finish_violation : (c.finish).violation = c.violation := rfl

@[simp] theorem Inst.finish_inProgress : (c.finish).inProgress = none := rfl

@[simp] theorem Inst.finish_cmd : (c.finish).cmd = c.cmd := rfl

@[simp] theorem Inst.finish_din : (c.finish).din = c.din := rfl

@[simp] theorem Inst.finish_out : (c.finish).out = c.out := rfl

@[simp] theorem Inst.finish_rspReady : (c.finish).rspReady = c.rspReady := rfl

@[simp] theorem Inst.finish_doutReady : (c.finish).doutReady = c.doutReady := rfl

@[simp] theorem Inst.finish_sent : (c.finish).sent = c.sent := rfl

/-! Fields after `await`. -/

@[simp] theorem Inst.await_regs (i : Instr) : (c.await i).regs = c.regs := rfl

@[simp] theorem Inst.await_phase (i : Instr) : (c.await i).phase = c.phase := rfl

@[simp] theorem Inst.await_draws (i : Instr) : (c.await i).draws = c.draws := rfl

@[simp] theorem Inst.await_violation (i : Instr) : (c.await i).violation = c.violation := rfl

@[simp] theorem Inst.await_inProgress (i : Instr) : (c.await i).inProgress = some i := rfl

@[simp] theorem Inst.await_cmd (i : Instr) : (c.await i).cmd = c.cmd := rfl

@[simp] theorem Inst.await_din (i : Instr) : (c.await i).din = c.din := rfl

@[simp] theorem Inst.await_out (i : Instr) : (c.await i).out = c.out := rfl

@[simp] theorem Inst.await_rspReady (i : Instr) : (c.await i).rspReady = c.rspReady := rfl

@[simp] theorem Inst.await_doutReady (i : Instr) : (c.await i).doutReady = c.doutReady := rfl

@[simp] theorem Inst.await_sent (i : Instr) : (c.await i).sent = c.sent := rfl

/-! Fields after `consume`. -/

@[simp] theorem Inst.consume_phase : (c.consume).phase = .idle := rfl

@[simp] theorem Inst.consume_draws : (c.consume).draws = c.draws + 1 := rfl

@[simp] theorem Inst.consume_violation : (c.consume).violation = c.violation := rfl

@[simp] theorem Inst.consume_inProgress : (c.consume).inProgress = c.inProgress := rfl

@[simp] theorem Inst.consume_cmd : (c.consume).cmd = c.cmd := rfl

@[simp] theorem Inst.consume_din : (c.consume).din = c.din := rfl

@[simp] theorem Inst.consume_out : (c.consume).out = c.out := rfl

@[simp] theorem Inst.consume_rspReady : (c.consume).rspReady = c.rspReady := rfl

@[simp] theorem Inst.consume_doutReady : (c.consume).doutReady = c.doutReady := rfl

@[simp] theorem Inst.consume_sent : (c.consume).sent = c.sent := rfl

/-! Fields after `violate`. -/

@[simp] theorem Inst.violate_draws (e : Fault) : (c.violate e).draws = c.draws + 1 := rfl

@[simp] theorem Inst.violate_violation (e : Fault) : (c.violate e).violation = some e := rfl

@[simp] theorem Inst.violate_inProgress (e : Fault) : (c.violate e).inProgress = none := rfl

@[simp] theorem Inst.violate_cmd (e : Fault) : (c.violate e).cmd = c.cmd := rfl

@[simp] theorem Inst.violate_din (e : Fault) : (c.violate e).din = c.din := rfl

@[simp] theorem Inst.violate_out (e : Fault) : (c.violate e).out = c.out := rfl

@[simp] theorem Inst.violate_rspReady (e : Fault) : (c.violate e).rspReady = c.rspReady := rfl

@[simp] theorem Inst.violate_doutReady (e : Fault) : (c.violate e).doutReady = c.doutReady := rfl

@[simp] theorem Inst.violate_sent (e : Fault) : (c.violate e).sent = c.sent := rfl

/-! Fields after `applyReset`. -/

@[simp] theorem Inst.applyReset_phase : (c.applyReset).phase = .idle := rfl

@[simp] theorem Inst.applyReset_draws : (c.applyReset).draws = c.draws + 1 := rfl

@[simp] theorem Inst.applyReset_violation : (c.applyReset).violation = none := rfl

@[simp] theorem Inst.applyReset_inProgress : (c.applyReset).inProgress = none := rfl

@[simp] theorem Inst.applyReset_cmd : (c.applyReset).cmd = [] := rfl

@[simp] theorem Inst.applyReset_din : (c.applyReset).din = [] := rfl

@[simp] theorem Inst.applyReset_out : (c.applyReset).out = [] := rfl

@[simp] theorem Inst.applyReset_rspReady : (c.applyReset).rspReady = 0 := rfl

@[simp] theorem Inst.applyReset_doutReady : (c.applyReset).doutReady = 0 := rfl

@[simp] theorem Inst.applyReset_sent : (c.applyReset).sent = if c.violation = none then c.sent else [] := rfl

/-! Fields after `takeCmd`. -/

@[simp] theorem Inst.takeCmd_regs : (c.takeCmd).regs = c.regs := rfl

@[simp] theorem Inst.takeCmd_phase : (c.takeCmd).phase = c.phase := rfl

@[simp] theorem Inst.takeCmd_draws : (c.takeCmd).draws = c.draws := rfl

@[simp] theorem Inst.takeCmd_violation : (c.takeCmd).violation = c.violation := rfl

@[simp] theorem Inst.takeCmd_inProgress : (c.takeCmd).inProgress = c.inProgress := rfl

@[simp] theorem Inst.takeCmd_cmd : (c.takeCmd).cmd = c.cmd.tail := rfl

@[simp] theorem Inst.takeCmd_din : (c.takeCmd).din = c.din := rfl

@[simp] theorem Inst.takeCmd_out : (c.takeCmd).out = c.out := rfl

@[simp] theorem Inst.takeCmd_rspReady : (c.takeCmd).rspReady = c.rspReady := rfl

@[simp] theorem Inst.takeCmd_doutReady : (c.takeCmd).doutReady = c.doutReady := rfl

@[simp] theorem Inst.takeCmd_sent : (c.takeCmd).sent = c.sent := rfl

end Core

end Sys2Proof.Machine
end

