-- ==== Sys2Proof/Laws/Ops.lean ====
section
/-! SUPPORT. What each shared operation gives, once. -/

namespace Sys2Proof.Machine

/-! ### The selected core -/

section Selected

variable {s t : State} {f : (v : Variant) → Inst v → Except Fault (Inst v)}

@[simp] theorem State.answer_ok {v : Variant} (c : Inst v) : s.answer v (.ok c) = .next (s.setInst v c) := rfl

@[simp] theorem State.answer_error {v : Variant} (e : Fault) : s.answer v (.error e) = .fault e := rfl

/-- On a core without a violation the operation decides. -/
theorem State.onSelected_of_none (hv : (s.inst s.sel).violation = none) :
    s.onSelected f = s.answer s.sel (f s.sel (s.inst s.sel)) := by
  simp only [State.onSelected, hv]

/-- An operation on the selected core answers a next state exactly when no violation stands there and it answers a core, and only
that core changes. -/
theorem State.onSelected_eq_next :
    s.onSelected f = .next t ↔
      (s.inst s.sel).violation = none ∧ ∃ c, f s.sel (s.inst s.sel) = .ok c ∧ t = s.setInst s.sel c := by
  rcases hv : (s.inst s.sel).violation with _ | e
  · rw [State.onSelected_of_none hv]
    cases f s.sel (s.inst s.sel) <;> simp [eq_comm]
  · simp [State.onSelected, hv]

/-- It answers a fault exactly when a violation stands there, which is the fault, or it answers one. -/
theorem State.onSelected_eq_fault {e : Fault} :
    s.onSelected f = .fault e ↔
      (s.inst s.sel).violation = some e ∨
        (s.inst s.sel).violation = none ∧ f s.sel (s.inst s.sel) = .error e := by
  rcases hv : (s.inst s.sel).violation with _ | e'
  · rw [State.onSelected_of_none hv]
    cases f s.sel (s.inst s.sel) <;> simp
  · simp [State.onSelected, hv]

theorem State.onSelected_ne_refused (r : Refusal) : s.onSelected f ≠ .refused r := by
  rcases hv : (s.inst s.sel).violation with _ | e
  · rw [State.onSelected_of_none hv]
    cases f s.sel (s.inst s.sel) <;> simp
  · simp [State.onSelected, hv]

/-- Running an operation after the selected core has been replaced by one without a violation. -/
theorem State.onSelected_setInst {c : Inst s.sel} (hv : c.violation = none) :
    (s.setInst s.sel c).onSelected f = s.answer s.sel (f s.sel c) := by
  obtain ⟨c32, c64, sel, turns⟩ := s
  cases sel with
  | core32 =>
    change Inst .core32 at c
    rcases hf : f .core32 c <;> simp [State.onSelected, State.answer, State.setInst, State.inst, hf, hv]
  | core64 =>
    change Inst .core64 at c
    rcases hf : f .core64 c <;> simp [State.onSelected, State.answer, State.setInst, State.inst, hf, hv]

/-- Replacing the selected core by one with a violation: the violation is the fault. -/
theorem State.onSelected_setInst_violated {c : Inst s.sel} {e : Fault} (hv : c.violation = some e) :
    (s.setInst s.sel c).onSelected f = .fault e := by
  rw [State.onSelected_eq_fault]
  left
  obtain ⟨c32, c64, sel, turns⟩ := s
  cases sel <;> exact hv

end Selected

/-! ### Agreement -/

section Agreement

variable {v : Variant} (c : Inst v)

@[simp] theorem Inst.agrees_refl : c.Agrees c := ⟨rfl, fun _ => ⟨rfl, fun _ => rfl⟩⟩

/-- A core agrees with itself under other values in registers that hold none. -/
theorem Inst.agrees_of_idle (r : Regs v) (n : Nat) (h : c.phase = .idle) :
    c.Agrees { c with regs := r, draws := n } :=
  ⟨rfl, fun _ => ⟨rfl, fun ha => by rw [h] at ha; cases ha⟩⟩

/-- Two records of the same violation agree. -/
theorem Inst.agrees_of_violation {d : Inst v} {e : Fault} (hc : c.violation = some e) (hd : d.violation = some e) :
    c.Agrees d :=
  ⟨hd.trans hc.symm, fun h => by rw [hc] at h; cases h⟩

@[simp] theorem State.agrees_refl (s : State) : s.Agrees s := ⟨rfl, rfl, fun v => (s.inst v).agrees_refl⟩

/-- Devices that differ in one core only agree when that core does. -/
theorem State.agrees_setInst (s : State) {c d : Inst v} (h : c.Agrees d) : (s.setInst v c).Agrees (s.setInst v d) := by
  refine ⟨by simp, by simp, fun u => ?_⟩
  by_cases hu : u = v
  · subst hu
    simpa using h
  · rw [State.inst_setInst_of_ne _ hu, State.inst_setInst_of_ne _ hu]
    exact Inst.agrees_refl _

theorem OutcomesAgree.refl (o : Host.Outcome State Fault Refusal) : OutcomesAgree o o := by
  cases o <;> simp [OutcomesAgree]

end Agreement

/-! ### The initial vectors -/

/-- A chaining value as the tuple of its words. -/
def Hash.equivTuple (v : Variant) :
    Hash v ≃ Word v × Word v × Word v × Word v × Word v × Word v × Word v × Word v where
  toFun h := (h.h0, h.h1, h.h2, h.h3, h.h4, h.h5, h.h6, h.h7)
  invFun w := ⟨w.1, w.2.1, w.2.2.1, w.2.2.2.1, w.2.2.2.2.1, w.2.2.2.2.2.1, w.2.2.2.2.2.2.1, w.2.2.2.2.2.2.2⟩
  left_inv _ := rfl
  right_inv _ := rfl

/-- R71: the choice behind `Config.iv` leaves every table of distinct vectors open: each is that of some one-to-one map. -/
theorem ivChoice_covers (P : Params) (v : Variant) :
    ∃ choice : Equiv.Perm (Hash v), ∀ len ∈ validLengths v, choice (Config.ivLabel v len) = P.iv v len := by
  have : Finite (Word v) := Finite.of_injective BitVec.toFin fun _ _ h => BitVec.eq_of_toFin_eq h
  have : Finite (Hash v) := Finite.of_equiv _ (Hash.equivTuple v).symm
  have hlabel : ∀ a ∈ validLengths v, ∀ b ∈ validLengths v, Config.ivLabel v a = Config.ivLabel v b → a = b := by
    intro a ha b hb h
    have hl := congrArg (fun x : Hash v => x.h0.toNat) h
    have small : ∀ n ∈ validLengths v, n < 2 ^ v.wordBits := by cases v <;> decide
    simpa [Config.ivLabel, Nat.mod_eq_of_lt, small a ha, small b hb] using hl
  let label : { n // n ∈ validLengths v } → Hash v := fun n => Config.ivLabel v n
  let vector : { n // n ∈ validLengths v } → Hash v := fun n => P.iv v n
  have hi : Function.Injective label := fun a b h => Subtype.ext (hlabel a a.2 b b.2 h)
  have hj : Function.Injective vector := fun a b h => Subtype.ext (P.ivDistinct v a a.2 b b.2 h)
  let e : Set.range label ≃ Set.range vector := (Equiv.ofInjective label hi).symm.trans (Equiv.ofInjective vector hj)
  classical
  refine ⟨e.extendSubtype, fun len hl => ?_⟩
  have hx : Config.ivLabel v len ∈ Set.range label := ⟨⟨len, hl⟩, rfl⟩
  rw [Equiv.extendSubtype_apply_of_mem e _ hx]
  have : (⟨Config.ivLabel v len, hx⟩ : Set.range label) = Equiv.ofInjective label hi ⟨len, hl⟩ := rfl
  rw [this, Equiv.trans_apply, Equiv.symm_apply_apply]
  rfl

/-! ### Compression in order -/

@[simp] theorem compressAll_nil {v : Variant} (P : Params) (h : Hash v) : compressAll P h [] = h := rfl

/-- R82: compressing some blocks and then others is compressing all of them in order. -/
theorem compressAll_append {v : Variant} (P : Params) (h : Hash v) (a b : List (Block v)) :
    compressAll P h (a ++ b) = compressAll P (compressAll P h a) b := by
  simp [compressAll]

/-- Counting no blocks leaves the counter. -/
@[simp] theorem addBlocks_zero {v : Variant} (bc : Count v) : addBlocks bc 0 = bc := by simp [addBlocks]

/-- Counting in two portions is counting the sum. -/
theorem addBlocks_addBlocks {v : Variant} (bc : Count v) (m n : Nat) :
    addBlocks (addBlocks bc m) n = addBlocks bc (m + n) := by
  simp [addBlocks, BitVec.add_assoc, BitVec.ofNat_add]

/-! ### Padding -/

/-- Below the mark the zero fill ends at the mark. -/
theorem zeroFill_of_lt {v : Variant} {pos : Nat} (h : pos < padMark v) : zeroFill v pos = padMark v - 1 - pos := by
  cases v <;> simp only [zeroFill, padMark, Variant.blockBytes] at * <;> omega

/-- From the mark on it runs to the mark of the next block. -/
theorem zeroFill_of_ge {v : Variant} {pos : Nat} (h : padMark v ≤ pos) (hB : pos < v.blockBytes) :
    zeroFill v pos = v.blockBytes + padMark v - 1 - pos := by
  cases v <;> simp only [zeroFill, padMark, Variant.blockBytes] at * <;> omega

/-- The length of the padded tail, by its parts. -/
theorem padTail_length_eq {v : Variant} (bc : Count v) (m : List Byte) :
    (padTail bc m).length = m.length + 1 + zeroFill v m.length + lengthBytes v := by
  simp [padTail]
  omega

/-! ### Output beats -/

@[simp] theorem doutBeats_nil : doutBeats [] = [] := rfl

/-- The beats of an output carry `last` on the final one only. -/
theorem lastOnFinal_doutBeats (bytes : List Byte) : lastOnFinal (doutBeats bytes) = true := by
  induction bytes with
  | nil => rfl
  | cons b rest ih =>
    cases rest with
    | nil => rfl
    | cons b' rest =>
      rw [doutBeats, lastOnFinal, ih]
      cases rest <;> simp [doutBeats]

/-- What is left after one beat of an output still has its form. -/
theorem lastOnFinal_tail {b : OutBeat} {rest : List OutBeat} (h : lastOnFinal (b :: rest) = true) :
    lastOnFinal rest = true := by
  cases b with
  | rsp => simp [lastOnFinal] at h
  | dout =>
    rw [lastOnFinal, Bool.and_eq_true] at h
    exact h.2

/-- What is left after one beat of a response is an output's rest. -/
theorem responseForm_tail {b : OutBeat} {rest : List OutBeat} (h : responseForm (b :: rest) = true) :
    lastOnFinal rest = true := by
  cases b with
  | rsp code =>
    rw [responseForm] at h
    split at h
    · exact h
    · rw [Bool.and_eq_true, List.isEmpty_iff] at h
      rw [h.2]
      rfl
  | dout => exact lastOnFinal_tail h

/-- An output's rest is a response's rest. -/
theorem responseForm_of_lastOnFinal {beats : List OutBeat} (h : lastOnFinal beats = true) : responseForm beats = true := by
  match beats with
  | [] => rfl
  | .rsp _ :: _ => simp [lastOnFinal] at h
  | .dout _ _ :: _ => exact h

end Sys2Proof.Machine
end

