-- ==== Sys2Proof/Laws/Exec.lean ====
section
/-! SUPPORT. What each command can do, once: its cases on one core, and the passage from `exec` to a core. -/

namespace Sys2Proof.Machine

/-- `exec` is the command on the selected core, over the opaque parameters. -/
theorem exec_eq_onSelected (i : Instr) (s : State) : exec i s = s.onSelected (commandOn params i) := by
  cases i <;> rfl

/-- A command answers a next state exactly when no violation stands on its core and it answers a core, and only that core
changes. -/
theorem exec_eq_next {i : Instr} {s t : State} :
    exec i s = .next t ↔
      (s.inst s.sel).violation = none ∧
        ∃ c, commandOn params i s.sel (s.inst s.sel) = .ok c ∧ t = s.setInst s.sel c := by
  rw [exec_eq_onSelected, State.onSelected_eq_next]

theorem exec_eq_fault {i : Instr} {s : State} {e : Fault} :
    exec i s = .fault e ↔
      (s.inst s.sel).violation = some e ∨
        (s.inst s.sel).violation = none ∧ commandOn params i s.sel (s.inst s.sel) = .error e := by
  rw [exec_eq_onSelected, State.onSelected_eq_fault]

theorem exec_ne_refused {i : Instr} {s : State} (r : Refusal) : exec i s ≠ .refused r := by
  rw [exec_eq_onSelected]
  exact State.onSelected_ne_refused r

/-- A command that answers a core answers the next state with that core in place. -/
theorem exec_of_ok {i : Instr} {s : State} {c : Inst s.sel} (hv : (s.inst s.sel).violation = none)
    (h : commandOn params i s.sel (s.inst s.sel) = .ok c) : exec i s = .next (s.setInst s.sel c) :=
  exec_eq_next.mpr ⟨hv, c, h, rfl⟩

/-- The same where the selected core is known under another name. -/
theorem exec_of_ok_sel {i : Instr} {s : State} {v : Variant} {c : Inst v} (hs : s.sel = v)
    (hv : (s.inst v).violation = none) (h : commandOn params i v (s.inst v) = .ok c) :
    exec i s = .next (s.setInst v c) := by
  subst hs
  exact exec_of_ok hv h

/-- A command that is a violation answers it. -/
theorem exec_of_error {i : Instr} {s : State} {e : Fault} (hv : (s.inst s.sel).violation = none)
    (h : commandOn params i s.sel (s.inst s.sel) = .error e) : exec i s = .fault e :=
  exec_eq_fault.mpr (.inr ⟨hv, h⟩)

/-- A command after the selected core has been replaced by one without a violation. -/
theorem exec_setInst (i : Instr) (s : State) {c : Inst s.sel} (hv : c.violation = none) :
    exec i (s.setInst s.sel c) = s.answer s.sel (commandOn params i s.sel c) :=
  (exec_eq_onSelected i _).trans (State.onSelected_setInst hv)

/-- A command after the selected core has been replaced by one with a violation. -/
theorem exec_setInst_violated (i : Instr) (s : State) {c : Inst s.sel} {e : Fault} (hv : c.violation = some e) :
    exec i (s.setInst s.sel c) = .fault e :=
  (exec_eq_onSelected i _).trans (State.onSelected_setInst_violated hv)

section Commands

variable {v : Variant} (P : Params) (c : Inst v)

/-- INIT with a valid length. -/
theorem commandOn_init_valid {len : Arg} (h : validLength v len = true) :
    commandOn P (.init len) v c = .ok
      { c with
        regs := { h := P.iv v len.toNat, bc := 0, outlen := BitVec.ofNat 7 len.toNat }
        phase := .active
        inProgress := none
        out := c.out ++ [.rsp rspOk] } := by
  simp [commandOn, initOn, h, Inst.finish, Inst.rspPut]

/-- INIT with any other length. -/
theorem commandOn_init_invalid {len : Arg} (h : validLength v len = false) :
    commandOn P (.init len) v c = .ok { c with inProgress := none, out := c.out ++ [.rsp rspInvalidOutputSize] } := by
  simp [commandOn, initOn, h, Inst.finish, Inst.raiseInvalidOutputSize, Inst.rspPut]

/-- UPDATE in `IDLE`. -/
theorem commandOn_update_idle {n : Arg} (h : c.phase = .idle) : commandOn P (.update n) v c = .error .wrongPhase := by
  simp [commandOn, updateOn, h]

/-- UPDATE without its whole payload. -/
theorem commandOn_update_waits {n : Arg} (h : c.phase = .active) (hd : c.din.length < n.toNat) :
    commandOn P (.update n) v c = .ok { c with inProgress := some (.update n) } := by
  simp [commandOn, updateOn, h, hd, Inst.await]

/-- UPDATE with its payload. -/
theorem commandOn_update_done {n : Arg} (h : c.phase = .active) (hd : n.toNat ≤ c.din.length) :
    commandOn P (.update n) v c = .ok
      { c with
        regs :=
          { h := compressAll P c.regs.h (c.dinBlocks n.toNat)
            bc := addBlocks c.regs.bc n.toNat
            outlen := c.regs.outlen }
        inProgress := none
        din := c.din.drop n.toNat
        out := c.out ++ [.rsp rspOk] } := by
  simp [commandOn, updateOn, h, Nat.not_lt.mpr hd, Inst.finish, Inst.rspPut, Inst.dinDrop]

/-- FINALIZE in `IDLE`. -/
theorem commandOn_finalize_idle {pos : Arg} (h : c.phase = .idle) : commandOn P (.finalize pos) v c = .error .wrongPhase := by
  simp [commandOn, finalizeOn, h]

/-- FINALIZE with a fill count out of range. -/
theorem commandOn_finalize_outOfRange {pos : Arg} (h : c.phase = .active) (hp : v.blockBytes ≤ pos.toNat) :
    commandOn P (.finalize pos) v c = .error .fillOutOfRange := by
  simp [commandOn, finalizeOn, h, hp]

/-- FINALIZE without its buffer. -/
theorem commandOn_finalize_waits {pos : Arg} (h : c.phase = .active) (hp : pos.toNat < v.blockBytes) (hd : c.din = []) :
    commandOn P (.finalize pos) v c = .ok { c with inProgress := some (.finalize pos) } := by
  simp [commandOn, finalizeOn, h, hp, hd, Inst.await]

/-- The registers FINALIZE leaves: free values. -/
def consumedRegs (c : Inst v) (h : Hash v) : Regs v where
  h := Config.freeHash v c.draws h c.regs.bc c.regs.outlen
  bc := Config.freeCount v c.draws h c.regs.bc c.regs.outlen
  outlen := Config.freeOutlen v c.draws h c.regs.bc c.regs.outlen

/-- FINALIZE with its buffer. -/
theorem commandOn_finalize_done {pos : Arg} {buf : DinBeat v} {rest : List (DinBeat v)} (h : c.phase = .active)
    (hp : pos.toNat < v.blockBytes) (hd : c.din = buf :: rest) :
    commandOn P (.finalize pos) v c = .ok
      { c with
        regs := consumedRegs c (finalHash P c.regs ((blockOfBeat v buf).val.take pos.toNat))
        phase := .idle
        draws := c.draws + 1
        inProgress := none
        din := rest
        out := c.out ++ .rsp rspOk ::
          doutBeats (digest (finalHash P c.regs ((blockOfBeat v buf).val.take pos.toNat)) c.regs.outlen) } := by
  simp [commandOn, finalizeOn, h, hp, hd, Inst.finish, Inst.rspPut, Inst.doutPut, Inst.consume, Inst.unspecify, consumedRegs]

/-- SNAPSHOT in `IDLE`. -/
theorem commandOn_snapshot_idle {arg : Arg} (h : c.phase = .idle) : commandOn P (.snapshot arg) v c = .error .wrongPhase := by
  simp [commandOn, snapshotOn, h]

/-- SNAPSHOT with an operand. -/
theorem commandOn_snapshot_operand {arg : Arg} (h : c.phase = .active) (ha : arg ≠ 0) :
    commandOn P (.snapshot arg) v c = .error .snapshotOperand := by
  rw [commandOn, snapshotOn, h, if_neg (by simp), if_pos ha]

/-- SNAPSHOT. -/
theorem commandOn_snapshot_done (h : c.phase = .active) :
    commandOn P (.snapshot 0) v c = .ok
      { c with inProgress := none, out := c.out ++ .rsp rspOk :: doutBeats (snapshotBytes c.regs) } := by
  simp [commandOn, snapshotOn, h, Inst.finish, Inst.rspPut, Inst.doutPut]

theorem Inst.phase_cases : c.phase = .idle ∨ c.phase = .active := by cases c.phase <;> simp

/-- Everything a command can do on a core when it answers one: be rejected with `0x01`, begin a hash, wait for payload,
compress and count, end a hash, or show the registers. -/
theorem commandOn_cases {i : Instr} {d : Inst v} (h : commandOn P i v c = .ok d) :
    (∃ len, i = .init len ∧ validLength v len = false ∧
      d = { c with inProgress := none, out := c.out ++ [.rsp rspInvalidOutputSize] }) ∨
    (∃ len, i = .init len ∧ validLength v len = true ∧
      d = { c with
            regs := { h := P.iv v len.toNat, bc := 0, outlen := BitVec.ofNat 7 len.toNat }
            phase := .active
            inProgress := none
            out := c.out ++ [.rsp rspOk] }) ∨
    (c.phase = .active ∧ c.accepts i = true ∧ c.din.length < i.payload ∧ d = { c with inProgress := some i }) ∨
    (∃ n, i = .update n ∧ c.phase = .active ∧ n.toNat ≤ c.din.length ∧
      d = { c with
            regs :=
              { h := compressAll P c.regs.h (c.dinBlocks n.toNat)
                bc := addBlocks c.regs.bc n.toNat
                outlen := c.regs.outlen }
            inProgress := none
            din := c.din.drop n.toNat
            out := c.out ++ [.rsp rspOk] }) ∨
    (∃ pos buf rest, i = .finalize pos ∧ c.phase = .active ∧ pos.toNat < v.blockBytes ∧ c.din = buf :: rest ∧
      d = { c with
            regs := consumedRegs c (finalHash P c.regs ((blockOfBeat v buf).val.take pos.toNat))
            phase := .idle
            draws := c.draws + 1
            inProgress := none
            din := rest
            out := c.out ++ .rsp rspOk ::
              doutBeats (digest (finalHash P c.regs ((blockOfBeat v buf).val.take pos.toNat)) c.regs.outlen) }) ∨
    (i = .snapshot 0 ∧ c.phase = .active ∧
      d = { c with inProgress := none, out := c.out ++ .rsp rspOk :: doutBeats (snapshotBytes c.regs) }) := by
  have inj : ∀ {r : Except Fault (Inst v)} {x : Inst v}, r = .ok x → r = .ok d → d = x := fun hx hd => by
    rw [hx] at hd
    exact (Except.ok.inj hd).symm
  cases i with
  | init len =>
    cases hl : validLength v len with
    | false => exact .inl ⟨len, rfl, hl, inj (commandOn_init_invalid P c hl) h⟩
    | true => exact .inr (.inl ⟨len, rfl, hl, inj (commandOn_init_valid P c hl) h⟩)
  | update n =>
    rcases c.phase_cases with hp | hp
    · simp [commandOn_update_idle P c hp] at h
    · rcases Nat.lt_or_ge c.din.length n.toNat with hd | hd
      · exact .inr (.inr (.inl ⟨hp, by simp [Inst.accepts, hp], hd, inj (commandOn_update_waits P c hp hd) h⟩))
      · exact .inr (.inr (.inr (.inl ⟨n, rfl, hp, hd, inj (commandOn_update_done P c hp hd) h⟩)))
  | finalize pos =>
    rcases c.phase_cases with hp | hp
    · simp [commandOn_finalize_idle P c hp] at h
    · rcases Nat.lt_or_ge pos.toNat v.blockBytes with hb | hb
      · rcases hd : c.din with _ | ⟨buf, rest⟩
        · exact .inr (.inr (.inl ⟨hp, by simp [Inst.accepts, Instr.wellFormed, hp, hb], by simp [Instr.payload],
            hd ▸ inj (commandOn_finalize_waits P c hp hb hd) h⟩))
        · exact .inr (.inr (.inr (.inr (.inl ⟨pos, buf, rest, rfl, hp, hb, rfl, inj (commandOn_finalize_done P c hp hb hd) h⟩))))
      · simp [commandOn_finalize_outOfRange P c hp hb] at h
  | snapshot arg =>
    rcases c.phase_cases with hp | hp
    · simp [commandOn_snapshot_idle P c hp] at h
    · by_cases ha : arg = 0
      · subst ha
        exact .inr (.inr (.inr (.inr (.inr ⟨rfl, hp, inj (commandOn_snapshot_done P c hp) h⟩))))
      · rw [commandOn_snapshot_operand P c hp ha] at h
        cases h

/-- A command does not read what its core has still to transfer: with other beats there it adds the same beats and does the
same otherwise. -/
theorem commandOn_out {i : Instr} {d : Inst v} (h : commandOn P i v c = .ok d) :
    ∃ beats, d.out = c.out ++ beats ∧
      ∀ o, commandOn P i v { c with out := o } = .ok { d with out := o ++ beats } := by
  rcases commandOn_cases P c h with ⟨len, rfl, hl, rfl⟩ | ⟨len, rfl, hl, rfl⟩ | ⟨hp, ha, hd, rfl⟩ |
    ⟨n, rfl, hp, hd, rfl⟩ | ⟨pos, buf, rest, rfl, hp, hb, hd, rfl⟩ | ⟨rfl, hp, rfl⟩
  · exact ⟨_, rfl, fun o => by rw [commandOn_init_invalid P _ hl]⟩
  · exact ⟨_, rfl, fun o => by rw [commandOn_init_valid P _ hl]⟩
  · refine ⟨[], by simp, fun o => ?_⟩
    cases i with
    | init => simp [Instr.payload] at hd
    | snapshot => simp [Instr.payload] at hd
    | update n => simp [commandOn_update_waits P { c with out := o } hp hd]
    | finalize pos =>
      have hb : pos.toNat < v.blockBytes := by simpa [Inst.accepts, Instr.wellFormed, hp] using ha
      have hn : c.din = [] := by simpa [Instr.payload] using hd
      simp [commandOn_finalize_waits P { c with out := o } hp hb hn]
  · refine ⟨_, rfl, fun o => ?_⟩
    simp [commandOn_update_done P { c with out := o } hp hd, Inst.dinBlocks]
  · refine ⟨_, rfl, fun o => ?_⟩
    simp [commandOn_finalize_done P { c with out := o } hp hb hd, consumedRegs]
  · exact ⟨_, rfl, fun o => commandOn_snapshot_done P { c with out := o } hp⟩

/-- A command records no violation and clears none. -/
theorem commandOn_violation {i : Instr} {d : Inst v} (h : commandOn P i v c = .ok d) : d.violation = c.violation := by
  rcases commandOn_cases P c h with ⟨len, -, -, rfl⟩ | ⟨len, -, -, rfl⟩ | ⟨-, -, -, rfl⟩ | ⟨n, -, -, -, rfl⟩ |
    ⟨pos, buf, rest, -, -, -, -, rfl⟩ | ⟨-, -, rfl⟩ <;> rfl

/-- The violations of a command do not depend on the beats to transfer. -/
theorem commandOn_error_out {i : Instr} {e : Fault} (o : List OutBeat) (h : commandOn P i v c = .error e) :
    commandOn P i v { c with out := o } = .error e := by
  cases hd : commandOn P i v { c with out := o } with
  | error e' =>
    cases i <;> simp_all [commandOn, initOn, updateOn, finalizeOn, snapshotOn] <;> grind
  | ok d =>
    obtain ⟨beats, -, hall⟩ := commandOn_out P _ hd
    have := hall c.out
    simp [h] at this

end Commands

end Sys2Proof.Machine
end

