-- ==== Sys2Proof/Laws/PerInstr.lean ====
section
/-! SUPPORT. The family CommandFormat (rule R50): every command's word has its operation code, zero reserved bits, and its
operand in the fields Table F gives them. -/

namespace Sys2Proof.Laws.CommandFormat

/-- R50, R51 of one command. -/
def Statement (i : Instr) : Prop :=
  opField (encode i) = i.opcode ∧ rsvField (encode i) = 0 ∧ argField (encode i) = i.arg

theorem init (outputLen : Arg) : Statement (.init outputLen) :=
  ⟨opField_encode _, rsvField_encode _, argField_encode _⟩

theorem update (n : Arg) : Statement (.update n) :=
  ⟨opField_encode _, rsvField_encode _, argField_encode _⟩

theorem finalize (pos : Arg) : Statement (.finalize pos) :=
  ⟨opField_encode _, rsvField_encode _, argField_encode _⟩

theorem snapshot (arg : Arg) : Statement (.snapshot arg) :=
  ⟨opField_encode _, rsvField_encode _, argField_encode _⟩

end Sys2Proof.Laws.CommandFormat
end

