-- ==== Sys2Proof/Laws/Step.lean ====
section
/-! SUPPORT. What one step of the device can do, once. -/

namespace Sys2Proof.Machine

section Core

variable {v : Variant} (c : Inst v)

/-- R31: the host's moves other than RESET touch one port each. -/
@[simp] theorem Inst.hostMove_reset : c.hostMove .reset = c.applyReset := rfl

@[simp] theorem Inst.hostMove_offerCmd (w : CmdWord) : c.hostMove (.offerCmd w) = { c with cmd := c.cmd ++ [w] } := rfl

@[simp] theorem Inst.hostMove_offerDin (b : DinBeat v) : c.hostMove (.offerDin b) = { c with din := c.din ++ [b] } := rfl

@[simp] theorem Inst.hostMove_acceptRsp : c.hostMove .acceptRsp = { c with rspReady := c.rspReady + 1 } := rfl

@[simp] theorem Inst.hostMove_acceptDout : c.hostMove .acceptDout = { c with doutReady := c.doutReady + 1 } := rfl

/-- A core with a violation waits. -/
theorem Inst.action_of_violation {e : Fault} (hv : c.violation = some e) : c.action = .wait := by
  simp only [Inst.action, hv]

/-- A core resumes the command in progress once its payload is complete. -/
theorem Inst.action_eq_resume {i : Instr} :
    c.action = .resume i ↔ c.violation = none ∧ c.inProgress = some i ∧ i.payload ≤ c.din.length := by
  rcases hv : c.violation with _ | e
  · rcases hp : c.inProgress with _ | j
    · rcases ho : c.out with _ | ⟨b, rest⟩
      · rcases hc : c.cmd with _ | ⟨w, ws⟩ <;> simp [Inst.action, hv, hp, ho, hc]
      · by_cases hr : c.hostReady b = true <;> simp [Inst.action, hv, hp, ho, hr]
    · by_cases hd : j.payload ≤ c.din.length
      · simp only [Inst.action, hv, hp, hd, if_true, Action.resume.injEq, Option.some.injEq, true_and]
        exact ⟨fun h => ⟨h, h ▸ hd⟩, fun h => h.1⟩
      · simp only [Inst.action, hv, hp, hd, if_false, Option.some.injEq, true_and]
        exact ⟨fun h => (Action.noConfusion h), fun h => absurd (h.1 ▸ h.2) hd⟩
  · simp [c.action_of_violation hv]

/-- A core takes a command word only with no command in progress and nothing left to transfer. -/
theorem Inst.action_eq_fetch {w : CmdWord} :
    c.action = .fetch w ↔ c.violation = none ∧ c.inProgress = none ∧ c.out = [] ∧ ∃ ws, c.cmd = w :: ws := by
  rcases hv : c.violation with _ | e
  · rcases hp : c.inProgress with _ | j
    · rcases ho : c.out with _ | ⟨b, rest⟩
      · rcases hc : c.cmd with _ | ⟨w', ws⟩ <;> simp [Inst.action, hv, hp, ho, hc]
      · by_cases hr : c.hostReady b = true <;> simp [Inst.action, hv, hp, ho, hr]
    · by_cases hd : j.payload ≤ c.din.length <;> simp [Inst.action, hv, hp, hd]
  · simp [c.action_of_violation hv]

/-- A core transfers its oldest output beat when the host is ready for it. -/
theorem Inst.action_eq_transfer :
    c.action = .transfer ↔
      c.violation = none ∧ c.inProgress = none ∧ ∃ b rest, c.out = b :: rest ∧ c.hostReady b = true := by
  rcases hv : c.violation with _ | e
  · rcases hp : c.inProgress with _ | j
    · rcases ho : c.out with _ | ⟨b, rest⟩
      · rcases hc : c.cmd with _ | ⟨w', ws⟩ <;> simp [Inst.action, hv, hp, ho, hc]
      · by_cases hr : c.hostReady b = true <;> simp [Inst.action, hv, hp, ho, hr]
    · by_cases hd : j.payload ≤ c.din.length <;> simp [Inst.action, hv, hp, hd]
  · simp [c.action_of_violation hv]

/-- What a transfer leaves alone: all but the beats to transfer, the readiness and the record of transferred beats. -/
theorem Inst.transfer_eq :
    c.transfer = { c with
      out := c.transfer.out
      rspReady := c.transfer.rspReady
      doutReady := c.transfer.doutReady
      sent := c.transfer.sent } := by
  rw [Inst.transfer]
  split <;> rfl

end Core

variable {s t : State}

/-! ### Whose turn it is -/

theorem State.turn_of_cons {turn : Turn} {rest : List Turn} (h : s.turns = turn :: rest) : s.turn = some turn := by
  simp only [State.turn, h]

theorem State.dropTurn_of_cons {turn : Turn} {rest : List Turn} (h : s.turns = turn :: rest) :
    s.dropTurn = { s with turns := rest } := by
  simp only [State.dropTurn, h, List.tail_cons]

/-- The host's turn is always one given. -/
theorem State.turn_eq_host {e : HostEvent} (h : s.turn = some (.host e)) : ∃ rest, s.turns = .host e :: rest := by
  rcases ht : s.turns with _ | ⟨turn, rest⟩
  · simp only [State.turn, ht] at h
    split at h
    · cases h
    · split at h <;> cases h
  · rw [State.turn_of_cons ht] at h
    cases h
    exact ⟨rest, rfl⟩

/-- Nobody's turn: none is given and both cores wait. -/
theorem State.turn_eq_none :
    s.turn = none ↔ s.turns = [] ∧ s.core32.action = .wait ∧ s.core64.action = .wait := by
  rcases ht : s.turns with _ | ⟨turn, rest⟩
  · simp only [State.turn, ht]
    by_cases h32 : s.core32.action = .wait <;> by_cases h64 : s.core64.action = .wait <;> simp [h32, h64]
  · simp [State.turn_of_cons ht]

/-! ### What a step is -/

/-- On the host's turn its move is made. -/
theorem step_of_host {e : HostEvent} (h : s.turn = some (.host e)) : step s = .next (s.dropTurn.hostStep e) := by
  rw [step, stepWith, h]

/-- On a core's turn the core is served. -/
theorem step_of_core {v : Variant} (h : s.turn = some (.core v)) : step s = s.dropTurn.serve exec v := by
  rw [step, stepWith, h]

/-- On nobody's turn the device rests. -/
theorem step_of_none (h : s.turn = none) : step s = s.rest := by
  rw [step, stepWith, h]

@[simp] theorem State.contain_next (v : Variant) : s.contain v (.next t) = .next t := rfl

@[simp] theorem State.contain_fault (v : Variant) (e : Fault) :
    s.contain v (.fault e) = .next (s.setInst v ((s.inst v).violate e)) := rfl

/-- A contained command that answers a core. -/
theorem State.contain_exec_ok {v : Variant} {i : Instr} {d : Inst v} (hs : s.sel = v) (hv : (s.inst v).violation = none)
    (h : commandOn params i v (s.inst v) = .ok d) : s.contain v (exec i s) = .next (s.setInst v d) := by
  rw [exec_of_ok_sel hs hv h, State.contain_next]

/-- A contained command that is a violation: it is recorded on its core, and the device goes on (R140). -/
theorem State.contain_exec_error {v : Variant} {i : Instr} {e : Fault} (hs : s.sel = v) (hv : (s.inst v).violation = none)
    (h : commandOn params i v (s.inst v) = .error e) :
    s.contain v (exec i s) = .next (s.setInst v ((s.inst v).violate e)) := by
  subst hs
  rw [exec_of_error hv h, State.contain_fault]

/-- Everything a core's turn can make of that core: nothing, one beat fewer to transfer, the answer of a command just taken or of
the command in progress, or a recorded violation of one of them or of a reserved word. -/
inductive Served {v : Variant} (c : Inst v) : Inst v → Prop where
  | waits (h : c.action = .wait) : Served c c
  | transfers (h : c.action = .transfer) : Served c c.transfer
  | fetched {w : CmdWord} {i : Instr} {d : Inst v} (h : c.action = .fetch w) (hw : decode w = .ok i)
      (hd : commandOn params i v c.takeCmd = .ok d) : Served c d
  | resumed {i : Instr} {d : Inst v} (h : c.action = .resume i) (hd : commandOn params i v c = .ok d) : Served c d
  | fetchViolates {w : CmdWord} {i : Instr} {e : Fault} (h : c.action = .fetch w) (hw : decode w = .ok i)
      (hd : commandOn params i v c.takeCmd = .error e) : Served c (c.takeCmd.violate e)
  | resumeViolates {i : Instr} {e : Fault} (h : c.action = .resume i) (hd : commandOn params i v c = .error e) :
      Served c (c.violate e)
  | reserved {w : CmdWord} {r : Reserved} (h : c.action = .fetch w) (hw : decode w = .error r) :
      Served c (c.takeCmd.violate (reservedFault r))

/-- R140: a core's turn always answers a next state, in which that core has been served and nothing else has changed. -/
theorem serve_served (s : State) (v : Variant) :
    ∃ d t, s.serve exec v = .next t ∧ Served (s.inst v) d ∧ t.inst v = d ∧ t.turns = s.turns ∧
      ∀ u, u ≠ v → t.inst u = s.inst u := by
  rcases ha : (s.inst v).action with _ | _ | w | i
  · exact ⟨_, s, by simp only [State.serve, ha], .waits ha, rfl, rfl, fun _ _ => rfl⟩
  · exact ⟨_, _, by simp [State.serve, ha], .transfers ha, State.inst_setInst _ _ _, by simp,
      fun u hu => State.inst_setInst_of_ne _ hu _⟩
  · have hv : ((s.takeCmd v).inst v).violation = none := by simpa using ((Inst.action_eq_fetch _).mp ha).1
    have ho : ∀ (c : Inst v) u, u ≠ v → ((s.takeCmd v).setInst v c).inst u = s.inst u := fun c u hu =>
      (State.inst_setInst_of_ne _ hu c).trans (State.takeCmd_inst_of_ne s hu)
    rcases hd : decode w with r | i
    · refine ⟨_, _, ?_, .reserved ha hd, State.inst_setInst (s.takeCmd v) v _, by simp, fun u hu => ho _ u hu⟩
      simp [State.serve, ha, hd]
    · have hr : s.serve exec v = (s.takeCmd v).contain v (exec i (s.takeCmd v)) := by simp only [State.serve, ha, hd]
      rcases hc : commandOn params i v (s.inst v).takeCmd with e | d
      · refine ⟨_, _, ?_, .fetchViolates ha hd hc, State.inst_setInst (s.takeCmd v) v _, by simp, fun u hu => ho _ u hu⟩
        rw [hr, State.contain_exec_error (s.takeCmd_sel v) hv (by rw [State.takeCmd_inst]; exact hc), State.takeCmd_inst]
      · refine ⟨d, _, ?_, .fetched ha hd hc, State.inst_setInst (s.takeCmd v) v _, by simp, fun u hu => ho _ u hu⟩
        rw [hr, State.contain_exec_ok (s.takeCmd_sel v) hv (by rw [State.takeCmd_inst]; exact hc)]
  · have hv : (s.inst v).violation = none := ((Inst.action_eq_resume _).mp ha).1
    have hr : s.serve exec v = s.contain v (exec i (s.select v)) := by simp only [State.serve, ha]
    rcases hc : commandOn params i v (s.inst v) with e | d
    · refine ⟨_, s.setInst v ((s.inst v).violate e), ?_, .resumeViolates ha hc, State.inst_setInst _ _ _, by simp,
        fun u hu => State.inst_setInst_of_ne _ hu _⟩
      have he : exec i (s.select v) = .fault e := exec_of_error (by simpa using hv) (by
        rw [State.select_sel, State.select_inst]
        exact hc)
      rw [hr, he, State.contain_fault]
    · refine ⟨d, (s.select v).setInst v d, ?_, .resumed ha hc, State.inst_setInst _ _ _, by simp, fun u hu => ?_⟩
      · have he : exec i (s.select v) = .next ((s.select v).setInst v d) :=
          exec_of_ok_sel (s.select_sel v) (by simpa using hv) (by rw [State.select_inst]; exact hc)
        rw [hr, he, State.contain_next]
      · rw [State.inst_setInst_of_ne _ hu, State.select_inst]

/-- What a step that answers a next state can do to one core: nothing, serve it, or make a host move at its ports. -/
theorem step_inst (h : step s = .next t) (u : Variant) :
    t.inst u = s.inst u ∧ s.turn ≠ some (.core u) ∨
    s.turn = some (.core u) ∧ Served (s.inst u) (t.inst u) ∨
    (∃ m, s.turn = some (.host ⟨u, m⟩) ∧ t.inst u = (s.inst u).hostMove m) := by
  rcases ht : s.turn with _ | ⟨⟨v, m⟩ | v⟩
  · rw [step_of_none ht, State.rest] at h
    split at h
    · cases h
    · cases h
      exact .inl ⟨rfl, by simp⟩
  · rw [step_of_host ht] at h
    cases h
    by_cases hu : u = v
    · subst hu
      exact .inr (.inr ⟨m, rfl, by simp [State.hostStep]⟩)
    · exact .inl ⟨by simp [State.hostStep, State.inst_setInst_of_ne _ hu], by simp⟩
  · rw [step_of_core ht] at h
    obtain ⟨d, t', hs, hd, hi, -, ho⟩ := serve_served s.dropTurn v
    rw [hs] at h
    cases h
    by_cases hu : u = v
    · subst hu
      rw [State.dropTurn_inst] at hd
      exact .inr (.inl ⟨rfl, hi.symm ▸ hd⟩)
    · exact .inl ⟨by rw [ho u hu, State.dropTurn_inst], by simpa using fun e => hu e.symm⟩

/-- The command a core's turn executes is the one it takes or resumes. -/
theorem State.executes_of_core {v : Variant} (h : s.turn = some (.core v)) {i : Instr} :
    s.executes = some (v, i) ↔
      (s.inst v).action = .resume i ∨ ∃ w, (s.inst v).action = .fetch w ∧ decode w = .ok i := by
  simp only [State.executes, h]
  rcases ha : (s.inst v).action with _ | _ | w | j
  · simp
  · simp
  · rcases hd : decode w with r | j <;> simp [hd]
  · simp

/-- No other core executes anything on a core's turn. -/
theorem State.turn_of_executes {v : Variant} {i : Instr} (h : s.executes = some (v, i)) : s.turn = some (.core v) := by
  rcases ht : s.turn with _ | ⟨e | u⟩
  · simp [State.executes, ht] at h
  · simp [State.executes, ht] at h
  · have hu : u = v := by
      simp only [State.executes, ht] at h
      split at h
      · cases h
      · cases h
      · cases h
        rfl
      · split at h
        · cases h
          rfl
        · cases h
    rw [hu]

end Sys2Proof.Machine
end

