-- ==== Sys2Proof/Tests/Slice0.lean ====
section
/-! SUPPORT. The model's own tests: the well-formedness smoke, decoding of words written out from Table F and Table O, at most
two tests a command with the results of spec/95_test_vectors.md, the check values of the FIPS annex, and a witness for the
hypotheses of every statement that has hypotheses. -/

namespace Sys2Proof.Tests

open Sys2Proof Sys2Proof.Machine

/-! ### Small states -/

/-- A core with nothing at its ports, registers of the FIPS table, one block counted. -/
def core (v : Variant) (p : Phase) (outlen : BitVec 7) (din : List (DinBeat v)) : Inst v where
  regs :=
    { h := Fips.iv v outlen.toNat
      bc := 1
      outlen := outlen }
  phase := p
  violation := none
  draws := 0
  inProgress := none
  cmd := []
  din := din
  out := []
  rspReady := 0
  doutReady := 0
  sent := []

/-- A device with that core selected and the other one idle. -/
def device (v : Variant) (p : Phase) (outlen : BitVec 7) (din : List (DinBeat v)) : State :=
  ({ core32 := core .core32 .idle 32 [], core64 := core .core64 .idle 32 [], sel := v, turns := [] } : State).setInst v
    (core v p outlen din)

/-- A DIN beat that starts with these bytes and is filled with `fill`. -/
def beat (v : Variant) (s : List Byte) (fill : Byte) : DinBeat v :=
  beatOfBlock v (blockOf v (s ++ List.replicate v.blockBytes fill))

/-- The core of a variant after an outcome, when that is a next state. -/
def after (o : Host.Outcome State Fault Refusal) (v : Variant) : Option (Inst v) :=
  match o with
  | .next t => some (t.inst v)
  | .fault _ => none
  | .refused _ => none

/-- Whether an outcome is this fault. -/
def stopsWith (o : Host.Outcome State Fault Refusal) (f : Fault) : Bool :=
  match o with
  | .next _ => false
  | .fault e => decide (e = f)
  | .refused _ => false

/-- The output bytes a core has still to transfer, as one number of the big-endian bytes. -/
def outputNumber {v : Variant} (c : Inst v) : Nat :=
  beNat (c.out.filterMap fun b =>
    match b with
    | .dout byte _ => some byte
    | .rsp _ => none)

/-! ### Well-formedness (R52) -/

/-- `CV4`: the first fill count out of range is 64 on Core32 and 128 on Core64. `CV5`: any operand of SNAPSHOT but 0. -/
theorem test_ill_formed_refused :
    (Instr.finalize 64).wellFormed .core32 = false ∧ (Instr.finalize 128).wellFormed .core64 = false ∧
      (Instr.snapshot 1).wellFormed .core32 = false ∧ (Instr.snapshot 1).wellFormed .core64 = false := by decide

theorem test_well_formed_accepted :
    (Instr.finalize 63).wellFormed .core32 = true ∧ (Instr.finalize 127).wellFormed .core64 = true ∧
      (Instr.snapshot 0).wellFormed .core32 = true ∧ (Instr.init 27).wellFormed .core32 = true ∧
      (Instr.update 0xFFFFFF).wellFormed .core64 = true := by decide

/-! ### Decoding: each word is written from Table F, `op`, `rsv`, `arg` from the most significant bit down -/

theorem test_decode_init : decode (0b0001#4 ++ 0b0000#4 ++ 0b000000000000000000100000#24) = .ok (.init 32) := by decide

theorem test_decode_update : decode (0b0010#4 ++ 0b0000#4 ++ 0b111111111111111111111111#24) = .ok (.update 0xFFFFFF) := by
  decide

theorem test_decode_finalize : decode (0b0011#4 ++ 0b0000#4 ++ 0b000000000000000001101111#24) = .ok (.finalize 111) := by
  decide

theorem test_decode_snapshot : decode (0b0100#4 ++ 0b0000#4 ++ 0b000000000000000000000000#24) = .ok (.snapshot 0) := by
  decide

/-- T22: the reserved words, `CV2` before `CV1`. -/
theorem test_decode_reserved :
    decode 0x00000000#32 = .error .op ∧ decode 0x50000000#32 = .error .op ∧ decode 0xF0000000#32 = .error .op ∧
      decode 0xFFFFFFFF#32 = .error .bits ∧ decode 0x11000020#32 = .error .bits ∧ decode 0x01000000#32 = .error .bits ∧
      decode 0x2F000001#32 = .error .bits := by decide

/-- R57: the line `FINALIZE 3 : 616263` for a payload of three bytes, and the aliases of INIT. -/
theorem test_lines :
    (Instr.finalize 3).line [0x61, 0x62, 0x63] = "FINALIZE 3 : 616263" ∧ (Instr.snapshot 0).line [] = "SNAPSHOT" ∧
      encode (Instr.initFor .sha384) = 0x10000030#32 ∧ encode (Instr.initFor .sha512_224) = 0x1000001C#32 := by
  decide +kernel

/-! ### INIT -/

/-- T1: `INIT 48` on Core64. -/
theorem test_init_sha384 :
    (after (execWith Fips.params (.init 48) (device .core64 .active 32 [])) .core64).map
        (fun c => (c.regs.h.h1, c.regs.bc, c.regs.outlen, c.phase, c.out)) =
      some (0x629a292a367cd507, 0, 48, .active, [.rsp 0x00]) := by decide +kernel

/-- T2, R75: lengths that differ from a valid one in one bit or one unit, or by a high bit, are all rejected. -/
theorem test_init_invalid :
    ([0, 1, 27, 29, 31, 33, 48, 64, 65, 224, 256, 0x10001C, 0x100020, 0xFFFFFF].all fun a => !validLength .core32 a) = true ∧
      ([0, 27, 29, 31, 33, 47, 49, 63, 65, 24, 60, 96, 224, 256, 384, 512, 0x10001C, 0x800040, 0xFFFFFF].all fun a =>
        !validLength .core64 a) = true := by decide +kernel

/-! ### UPDATE -/

/-- T6 (c): `UPDATE 2 : 62*64 61*64` after `INIT 32` on Core32, blocks in order. -/
theorem test_update_order :
    (after (execWith Fips.params (.update 2) (device .core32 .active 32 [beat .core32 [] 0x62, beat .core32 [] 0x61]))
        .core32).map (fun c => (c.regs.h.h0, c.regs.h.h7, c.regs.bc, c.din, c.out)) =
      some (0xf74acd74, 0x432747a2, 3, [], [.rsp 0x00]) := by decide +kernel

/-- T20a: the block counter wraps. -/
theorem test_update_counter_wraps :
    addBlocks (v := .core32) 0xffffffffffffffff 1 = 0 ∧ addBlocks (v := .core32) 0xfffffffffffffffe 5 = 3 ∧
      addBlocks (v := .core64) 0xffffffffffffffffffffffffffffffff 1 = 0 ∧
      addBlocks (v := .core64) 0xfffffffffffffffffffffffffffffffd 16777215 = 0xfffffc := by decide +kernel

/-! ### FINALIZE -/

/-- T19: SHA-512/224 of "abc" (`BC = 0`), the cut that keeps the high half of `H[3]`. -/
theorem test_finalize_cuts_a_word :
    (after (execWith Fips.params (.finalize 3)
        ((device .core64 .active 28 []).setInst .core64
          { core .core64 .active 28 [beat .core64 [0x61, 0x62, 0x63] 0xff] with
            regs := { h := Fips.iv .core64 28, bc := 0, outlen := 28 } })) .core64).map
        (fun c => (c.phase, c.out.length, outputNumber c)) =
      some (.idle, 29, 0x4634270f707b6a54daae7530460842e20e37ed265ceee9a43e8924aa) := by decide +kernel

/-- P4: SHA-256 of 64 bytes `61` and 56 bytes `62`, the second command of two final blocks. -/
theorem test_finalize_two_blocks :
    (after (execWith Fips.params (.finalize 56)
        ((device .core32 .active 32 []).setInst .core32
          { core .core32 .active 32 [beat .core32 [] 0x62] with
            regs :=
              { h := Fips.hashOf _ 0xdf5bb81ce81e0626fb45a8944fd40f31b25e6816d6d499c1ab90492900635e66
                bc := 1
                outlen := 32 } })) .core32).map
        (fun c => (c.din, outputNumber c)) =
      some ([], 0xfaf0928308cd7c597b5fe6cce29a066334a2b415fca521a9d8614b0f72f541c3) := by decide +kernel

/-- T20b: the length field at and beyond the bound. -/
theorem test_bit_length :
    bitLength (v := .core32) 0x123456789abcdef 42 = 0x468acf13579bdf50 ∧
      bitLength (v := .core32) 0x7fffffffffffff 63 = 0xfffffffffffffff8 ∧
      bitLength (v := .core32) 0x80000000000001 3 = 0x218 ∧
      bitLength (v := .core64) 0x123456789abcdef0123456789abcd 85 = 0x048d159e26af37bc048d159e26af36a8 ∧
      bitLength (v := .core64) 0x400000000000000000000000000002 5 = 0x828 := by decide +kernel

/-- T8, T9: the final blocks of 55 and 56 bytes `61` on Core32. -/
theorem test_padded_blocks :
    padTail (v := .core32) 0 (List.replicate 55 0x61) = List.replicate 55 0x61 ++ [0x80] ++ zeros 6 ++ [0x01, 0xb8] ∧
      padTail (v := .core32) 0 (List.replicate 56 0x61) = List.replicate 56 0x61 ++ [0x80] ++ zeros 69 ++ [0x01, 0xc0] := by
  decide +kernel

/-! ### SNAPSHOT -/

/-- T18: the 81 bytes after `INIT 64` and one block of `61`, `last` on the final one. -/
theorem test_snapshot_core64 :
    (after (execWith Fips.params (.snapshot 0)
        ((device .core64 .active 64 []).setInst .core64
          { core .core64 .active 64 [] with
            regs :=
              { h := Fips.hashOf _ 0x03bf7c6e55c11b040d48757f45285fdced46689bfc9026c0281701a1424c80f5ca31738befe6afee30f5fe8d4e41e2489379d57c74895af44b1e84ebc1bab8b0
                bc := 1
                outlen := 64 } })) .core64).map
        (fun c => (c.out.length, c.out.getLast?, outputNumber c)) =
      some (82, some (.dout 0x40 true),
        0x03bf7c6e55c11b040d48757f45285fdced46689bfc9026c0281701a1424c80f5ca31738befe6afee30f5fe8d4e41e2489379d57c74895af44b1e84ebc1bab8b00000000000000000000000000000000140) := by
  decide +kernel

/-- T22: `CV3` comes before `CV5`. -/
theorem test_snapshot_violations :
    stopsWith (execWith Fips.params (.snapshot 1) (device .core32 .idle 32 [])) .wrongPhase = true ∧
      stopsWith (execWith Fips.params (.snapshot 1) (device .core32 .active 32 [])) .snapshotOperand = true := by
  decide +kernel

/-! ### The annex -/

/-- R121: `Compress_32` of the padded "abc". -/
theorem test_compress32 :
    Fips.compress .core32 (Fips.iv .core32 32)
        (blockOf .core32 ([0x61, 0x62, 0x63, 0x80] ++ zeros 59 ++ [0x18])) =
      Fips.hashOf _ 0xba7816bf8f01cfea414140de5dae2223b00361a396177a9cb410ff61f20015ad := by
  decide +kernel

/-- R123: the generation of the two SHA-512/t vectors, which checks `Compress_64` and three rows of Table IV. The names are
"SHA-512/224" and "SHA-512/256" in ASCII. -/
theorem test_generated_vectors :
    Fips.compress .core64 Fips.generationStart
        (Fips.generationBlock [0x53, 0x48, 0x41, 0x2d, 0x35, 0x31, 0x32, 0x2f, 0x32, 0x32, 0x34]) = Fips.iv .core64 28 ∧
      Fips.compress .core64 Fips.generationStart
        (Fips.generationBlock [0x53, 0x48, 0x41, 0x2d, 0x35, 0x31, 0x32, 0x2f, 0x32, 0x35, 0x36]) = Fips.iv .core64 32 := by
  decide +kernel

/-- The first 80 primes: 409 is the 80th, and no number below 21² with a divisor has its least one above 20. -/
def primes : List Nat := (List.range 410).filter fun n => 2 ≤ n ∧ (List.range 21).all fun d => d < 2 ∨ n ≤ d ∨ n % d ≠ 0

/-- Whether `k` is the first `w` bits of the fractional part of the cube root of `p`, whose integer part is below 8. -/
def isCubeRootFraction (w p k : Nat) : Bool :=
  (List.range 8).any fun a => (a * 2 ^ w + k) ^ 3 ≤ p * 2 ^ (3 * w) ∧ p * 2 ^ (3 * w) < (a * 2 ^ w + k + 1) ^ 3

/-- R119, R120: the round constants are what the spec says they are, and the high halves of `K_64` are `K_32`. -/
theorem test_round_constants :
    primes.length = 80 ∧ (Fips.roundConstants .core32).length = 64 ∧ (Fips.roundConstants .core64).length = 80 ∧
      (primes.zip (Fips.roundConstants .core32)).all (fun x => isCubeRootFraction 32 x.1 x.2.toNat) ∧
      (primes.zip (Fips.roundConstants .core64)).all (fun x => isCubeRootFraction 64 x.1 x.2.toNat) ∧
      ((Fips.roundConstants .core64).take 64).map (fun k => k.toNat / 2 ^ 32) =
        (Fips.roundConstants .core32).map BitVec.toNat := by
  decide +kernel

/-- Table P: what the derived parameters are in terms of the others. -/
theorem test_table_p (v : Variant) :
    v.wordBits = 8 * v.wordBytes ∧ v.blockBytes = 16 * v.wordBytes ∧ v.counterBits = 2 * v.wordBits ∧
      padMark v = v.blockBytes - lengthBytes v ∧ stateBytes v = 8 * v.wordBytes ∧
      snapBytes v = stateBytes v + lengthBytes v + 1 ∧ v.counterBits = 8 * lengthBytes v := by
  cases v <;> decide

/-- Table V: every algorithm's length is valid on its variant. -/
theorem test_table_v (a : Algorithm) : validLength a.variant a.outputLen = true := by cases a <;> decide

/-! ### Witnesses: for each statement with hypotheses, states and operands that meet them, clause by clause, at the values where
clauses meet. With no turn given Core64 is served when Core32 waits. -/

/-- A device with one core changed. -/
def withCore (s : State) (v : Variant) (f : Inst v → Inst v) : State := s.setInst v (f (s.inst v))

/-- A device whose core `v` is in `ACTIVE` and has this command word offered. -/
def offered (v : Variant) (w : CmdWord) : State := withCore (device v .active 32 []) v fun c => { c with cmd := [w] }

/-- A device whose core `v` has this beat to transfer and whose host is ready for one beat on each port. -/
def sending (v : Variant) (b : OutBeat) : State :=
  withCore (device v .active 32 []) v fun c => { c with out := [b], rspReady := 1, doutReady := 1 }

/-- A device in which it is the host's turn to make this move, with a command word on the core's port that the core could take. -/
def moving (v : Variant) (m : HostMove v) : State := { offered v 0x20000000#32 with turns := [.host ⟨v, m⟩] }

/-- A device in which a violation stands on this core, both cores wait and no turn is given. -/
def violated (v : Variant) : State :=
  withCore (device v .active 32 []) v fun c => { c with violation := some .reservedOp, cmd := [0x1000001C#32] }

theorem witness_DecoderVerdicts :
    rsvField 0x0F000000#32 ≠ 0 ∧ (rsvField 0x0FFFFFFF#32 ≠ 0) ∧
      [0x00FFFFFF#32, 0x50000000#32, 0xF0000000#32].all (fun w => rsvField w = 0 ∧ ((opField w).toNat = 0 ∨ 5 ≤ (opField w).toNat)) ∧
      [0x10000000#32, 0x20FFFFFF#32, 0x30000000#32, 0x40000001#32].map (fun w => ((rsvField w).toNat, (opField w).toNat)) =
        [(0, 1), (0, 2), (0, 3), (0, 4)] := by decide

/-- With no turn given and with the core's turn given; a command that completes and one that is a violation. -/
theorem witness_StepRunsDecodedCommand (v : Variant) :
    (offered v 0x20000000#32).turn = some (.core v) ∧
      ({ offered v 0x20000000#32 with turns := [.core v] } : State).turn = some (.core v) ∧
      ((offered v 0x20000000#32).inst v).violation = none ∧ ((offered v 0x20000000#32).inst v).inProgress = none ∧
      ((offered v 0x20000000#32).inst v).out = [] ∧
      ((offered v 0x20000000#32).inst v).cmd = [0x20000000#32] ∧ decode 0x20000000#32 = .ok (.update 0) ∧
      (∃ t, exec (.update 0) (device v .active 32 []) = .next t) ∧
      exec (.update 0) (device v .idle 32 []) = .fault .wrongPhase := by
  cases v <;> exact ⟨by decide +kernel, rfl, rfl, rfl, rfl, rfl, by decide, ⟨_, rfl⟩, rfl⟩

theorem witness_ReservedWordFaults (v : Variant) :
    (offered v 0x01000000#32).turn = some (.core v) ∧ (offered v 0x50000000#32).turn = some (.core v) ∧
      ((offered v 0x01000000#32).inst v).violation = none ∧
      ((offered v 0x01000000#32).inst v).inProgress = none ∧ ((offered v 0x01000000#32).inst v).out = [] ∧
      ((offered v 0x01000000#32).inst v).cmd = [0x01000000#32] ∧ (0x01000000#32).extractLsb' 24 4 ≠ 0 ∧
      ((offered v 0x50000000#32).inst v).cmd = [0x50000000#32] ∧ (0x50000000#32).extractLsb' 24 4 = 0 ∧
      5 ≤ ((0x50000000#32).extractLsb' 28 4).toNat ∧ ((0x00000000#32).extractLsb' 28 4).toNat = 0 := by
  cases v <;> decide +kernel

/-- The last beat of the payload has just come. -/
theorem witness_StepResumesWaitingCommand (v : Variant) :
    let s := withCore (device v .active 32 [0, 1]) v fun c => { c with inProgress := some (.update 2) }
    s.turn = some (.core v) ∧ (s.inst v).violation = none ∧ (s.inst v).inProgress = some (.update 2) ∧
      (Instr.update 2).payload = (s.inst v).din.length := by
  cases v <;> decide +kernel

theorem witness_StepTransfersOldestBeat (v : Variant) :
    (sending v (.rsp 0)).turn = some (.core v) ∧ ((sending v (.rsp 0)).inst v).violation = none ∧
      ((sending v (.rsp 0)).inst v).inProgress = none ∧
      ((sending v (.rsp 0)).inst v).out = [.rsp 0] ∧ ((sending v (.rsp 0)).inst v).rspReady = 1 ∧
      (sending v (.dout 7 true)).turn = some (.core v) ∧
      ((sending v (.dout 7 true)).inst v).inProgress = none ∧
      ((sending v (.dout 7 true)).inst v).out = [.dout 7 true] ∧ ((sending v (.dout 7 true)).inst v).doutReady = 1 := by
  cases v <;> decide +kernel

/-- A turn given; none given and Core32, Core64 or neither able to act; the turn of a core that waits. -/
theorem witness_TurnOrder :
    (moving .core64 .acceptRsp).turns = [.host ⟨.core64, .acceptRsp⟩] ∧
      (offered .core32 0#32).turns = [] ∧ (offered .core32 0#32).core32.action ≠ .wait ∧
      (offered .core64 0#32).turns = [] ∧ (offered .core64 0#32).core32.action = .wait ∧
      (offered .core64 0#32).core64.action ≠ .wait ∧
      (device .core32 .active 32 []).core32.action = .wait ∧ (device .core32 .active 32 []).core64.action = .wait ∧
      ({ device .core32 .active 32 [] with turns := [.core .core64] } : State).turn = some (.core .core64) := by
  decide +kernel

theorem witness_WaitingHoldsTheState :
    (device .core32 .active 32 []).core32.action = .wait ∧ (device .core32 .active 32 []).core64.action = .wait ∧
      (device .core32 .active 32 []).turns = [] ∧ (device .core32 .active 32 []).core32.violation = none ∧
      (device .core32 .active 32 []).core64.violation = none ∧
      (∀ v, (violated v).core32.action = .wait ∧ (violated v).core64.action = .wait ∧ (violated v).turns = [] ∧
        ((violated v).inst v).violation = some .reservedOp) ∧
      (violated .core64).core32.violation = none := by
  refine ⟨by decide +kernel, by decide +kernel, rfl, rfl, rfl, fun v => ?_, rfl⟩
  cases v <;> decide +kernel

/-- All five moves of the host, RESET among them, while the core could take a command word. -/
theorem witness_HostOffersReachTheirPort (v : Variant) (m : HostMove v) :
    (moving v m).turns = [.host ⟨v, m⟩] ∧ ((moving v m).inst v).action = .fetch 0x20000000#32 := by
  cases v <;> exact ⟨rfl, rfl⟩

/-- RESET of a core that could act, and of one with a violation. -/
theorem witness_ResetAbandonsEverything (v : Variant) :
    (moving v .reset).turns = [.host ⟨v, .reset⟩] ∧ ((moving v .reset).inst v).action ≠ .wait ∧
      ({ violated v with turns := [.host ⟨v, .reset⟩] } : State).turns = [.host ⟨v, .reset⟩] ∧
      ((violated v).inst v).violation ≠ none := by
  cases v <;> decide +kernel

/-- A host move, with an INIT offered that the core does not take. -/
theorem witness_ViolationStandsUntilReset (v : Variant) :
    let s : State := { violated v with turns := [.host ⟨v, .acceptRsp⟩] }
    (∃ t, step s = .next t) ∧ (s.inst v).violation = some .reservedOp ∧ s.turn ≠ some (.host ⟨v, .reset⟩) := by
  cases v <;> exact ⟨⟨_, rfl⟩, rfl, by decide +kernel⟩

/-- The same core beside another that waits and beside one on which a violation stands; the core's word is a violation too. -/
theorem witness_CoreTurnsAreIndependent :
    let c := (offered .core64 0x50000000#32).core64
    let s : State := { offered .core64 0x50000000#32 with turns := [.core .core64] }
    let s' : State := { violated .core32 with core64 := c, turns := [.core .core64, .core .core32] }
    s.turns = [.core .core64] ∧ s'.turns = [.core .core64, .core .core32] ∧ s.inst .core64 = s'.inst .core64 ∧
      s.core32 ≠ s'.core32 := by decide +kernel

/-- A beat left to transfer; a command in progress, with a RESET pending that is only the turn after. -/
theorem witness_CommandWordWaitsItsTurn (v : Variant) :
    let s := withCore (sending v (.rsp 0)) v fun c => { c with cmd := [0x20000000#32] }
    let r : State := { withCore (offered v 0x20000000#32) v fun c => { c with inProgress := some (.update 1), din := [0] } with
      turns := [.core v, .host ⟨v, .reset⟩] }
    (∃ t, step s = .next t) ∧ (s.inst v).out ≠ [] ∧ s.turn ≠ some (.host ⟨v, .reset⟩) ∧
      (∃ t, step r = .next t) ∧ (r.inst v).inProgress ≠ none ∧ r.turn ≠ some (.host ⟨v, .reset⟩) := by
  cases v <;> exact ⟨⟨_, rfl⟩, by decide +kernel, by decide +kernel, ⟨_, rfl⟩, by decide +kernel, by decide +kernel⟩

/-- Every valid length of each variant, and the nearest invalid ones. -/
theorem witness_InitEffect :
    [28, 32].all (validLength .core32) ∧ [28, 32, 48, 64].all (validLength .core64) ∧
      ¬([0, 27, 29, 31, 33, 48, 64].any (validLength .core32)) ∧
      ¬([0, 27, 29, 31, 33, 47, 49, 63, 65].any (validLength .core64)) ∧
      (device .core32 .idle 32 []).sel = .core32 ∧ (device .core64 .idle 32 []).sel = .core64 := by decide +kernel

theorem witness_InitialVectorsDiffer (v : Variant) :
    ((device v .idle 32 []).inst v).violation = none ∧ validLength (device v .idle 32 []).sel 28 = true ∧
      validLength (device v .idle 32 []).sel 32 = true ∧ (28 : Arg) ≠ 32 := by
  cases v <;> decide +kernel

/-- Every state a witness of the commands uses is free of a violation. -/
theorem witness_no_violation (v : Variant) (p : Phase) (o : BitVec 7) (d : List (DinBeat v)) (u : Variant) :
    ((device v p o d).inst u).violation = none := by
  cases v <;> cases u <;> rfl

theorem witness_FailedInitChangesNothing (v : Variant) :
    validLength (device v .active 32 []).sel 27 = false ∧ ((device v .active 32 []).inst v).inProgress = none ∧
      (∃ t, exec (.update 0) (device v .active 32 []) = .next t) ∧
      exec (.update 0) (device v .idle 32 []) = .fault .wrongPhase := by
  cases v <;> exact ⟨by decide +kernel, rfl, ⟨_, rfl⟩, rfl⟩

theorem witness_InitForgetsTheRegisters (v : Variant) : validLength (device v .active 32 []).sel 28 = true := by
  cases v <;> decide +kernel

/-- In `IDLE`, with exactly the payload, and one beat short of it. -/
theorem witness_UpdateEffect (v : Variant) :
    ((device v .idle 32 []).inst v).phase = .idle ∧ ((device v .active 32 [0, 1]).inst v).phase = .active ∧
      (2 : Arg).toNat = ((device v .active 32 [0, 1]).inst v).din.length ∧
      ((device v .active 32 [0]).inst v).din.length < (2 : Arg).toNat := by
  cases v <;> decide +kernel

theorem witness_UpdateWaitsForItsBlocks (v : Variant) :
    ((device v .active 32 [0]).inst v).phase = .active ∧
      ((device v .active 32 [0]).inst v).din.length < (2 : Arg).toNat := by
  cases v <;> decide +kernel

theorem witness_UpdateOfNoBlocks (v : Variant) :
    ((device v .active 32 []).inst v).phase = .active ∧ ((device v .idle 32 []).inst v).phase = .idle := by
  cases v <;> exact ⟨rfl, rfl⟩

theorem witness_UpdateSplitsAnyWay (v : Variant) :
    ((device v .active 32 [0, 1, 2]).inst v).phase = .active ∧
      (3 : Arg).toNat ≤ ((device v .active 32 [0, 1, 2]).inst v).din.length ∧
      (([1, 0, 2] : List Arg).map BitVec.toNat).sum = (3 : Arg).toNat := by
  cases v <;> decide +kernel

/-- In `IDLE`; at the first fill count out of range; at the last one in range and at 0. -/
theorem witness_FinalizeEffect :
    ((device .core32 .idle 32 []).inst .core32).phase = .idle ∧
      ((device .core32 .active 32 [5]).inst .core32).phase = .active ∧
      ((device .core32 .active 32 [5]).inst .core32).din = [5] ∧
      ((device .core64 .active 48 [5]).inst .core64).phase = .active ∧
      ((device .core64 .active 48 [5]).inst .core64).din = [5] ∧
      Variant.blockBytes .core32 ≤ (64 : Arg).toNat ∧ (63 : Arg).toNat < Variant.blockBytes .core32 ∧
      Variant.blockBytes .core64 ≤ (128 : Arg).toNat ∧ (127 : Arg).toNat < Variant.blockBytes .core64 ∧
      (0 : Arg).toNat < Variant.blockBytes .core32 := by decide +kernel

theorem witness_FinalizeWaitsForItsBuffer (v : Variant) :
    ((device v .active 32 []).inst v).phase = .active ∧ (63 : Arg).toNat < v.blockBytes ∧
      ((device v .active 32 []).inst v).din = [] := by
  cases v <;> decide +kernel

/-- The greatest fill counts, and counters on both sides of the bound. -/
theorem witness_BitLength :
    63 < 64 ∧ 127 < 128 ∧ (0x7fffffffffffff#64).toNat < 2 ^ 55 ∧ ¬(0x80000000000000#64).toNat < 2 ^ 55 ∧
      (0x3fffffffffffffffffffffffffffff#128).toNat < 2 ^ 118 ∧
      ¬(0x400000000000000000000000000000#128).toNat < 2 ^ 118 := by decide +kernel

/-- Tails at the fill counts where the number of final blocks changes, and the longest. -/
theorem witness_Padding :
    [0, 55, 56, 63].all (fun n => (zeros n).length < Variant.blockBytes .core32) ∧
      [0, 111, 112, 127].all (fun n => (zeros n).length < Variant.blockBytes .core64) ∧
      (zeros 55).length + 1 ≤ padMark .core32 ∧ padMark .core32 ≤ (zeros 56).length ∧
      (zeros 111).length + 1 ≤ padMark .core64 ∧ padMark .core64 ≤ (zeros 112).length := by decide +kernel

theorem witness_SerializationIsBigEndian (v : Variant) :
    (Fips.iv v 32).words[7]? = some (Fips.iv v 32).h7 ∧ v.wordBytes - 1 < v.wordBytes := by
  cases v <;> decide +kernel

/-- The two lengths of each word width that are furthest apart. -/
theorem witness_DigestsArePrefixes :
    ((device .core32 .active 28 [5]).inst .core32).phase = .active ∧
      ((device .core32 .active 28 [5]).inst .core32).din ≠ [] ∧
      ((device .core32 .active 28 [5]).inst .core32).regs.outlen.toNat ∈ validLengths .core32 ∧
      (32#7).toNat ∈ validLengths .core32 ∧ (63 : Arg).toNat < Variant.blockBytes .core32 ∧
      ((device .core64 .active 28 [5]).inst .core64).regs.outlen.toNat ∈ validLengths .core64 ∧
      (64#7).toNat ∈ validLengths .core64 ∧ ((device .core64 .active 28 [5]).inst .core64).phase = .active ∧
      ((device .core64 .active 28 [5]).inst .core64).din ≠ [] := by decide +kernel

/-- T14: two buffers that agree on 3 bytes and nowhere else. -/
theorem witness_FinalizeIgnoresTheTail :
    (blockOfBeat .core32 (beat .core32 [0x61, 0x62, 0x63] 0)).val.take (3 : Arg).toNat =
        (blockOfBeat .core32 (beat .core32 [0x61, 0x62, 0x63] 0xff)).val.take (3 : Arg).toNat ∧
      beat .core32 [0x61, 0x62, 0x63] 0 ≠ beat .core32 [0x61, 0x62, 0x63] 0xff := by decide +kernel

theorem witness_FinalizeHappensOnce (v : Variant) :
    ∃ t, exec (.finalize 0) (device v .active 32 [5]) = .next t ∧ (t.inst v).inProgress = none ∧ t.sel = v := by
  cases v <;> exact ⟨_, rfl, rfl, rfl⟩

theorem witness_SnapshotEffect (v : Variant) :
    ((device v .idle 32 []).inst v).phase = .idle ∧ ((device v .active 32 []).inst v).phase = .active ∧ (1 : Arg) ≠ 0 := by
  cases v <;> decide +kernel

theorem witness_SnapshotIsReadOnly (v : Variant) :
    (∃ t, exec (.snapshot 0) (device v .active 32 []) = .next t) ∧ ((device v .active 32 []).inst v).inProgress = none ∧
      (∃ t, exec (.update 0) (device v .active 32 []) = .next t) ∧
      exec (.finalize 0xFFFFFF) (device v .active 32 []) = .fault .fillOutOfRange ∧
      validLength (device v .idle 32 []).sel 28 = true := by
  cases v <;> exact ⟨⟨_, rfl⟩, rfl, ⟨_, rfl⟩, rfl, by decide +kernel⟩

/-- Each command answers a next state somewhere; UPDATE and FINALIZE also by waiting. -/
theorem witness_CommandFrame (v : Variant) :
    (∃ t, exec (.init 28) (device v .idle 32 []) = .next t) ∧ (∃ t, exec (.init 0) (device v .idle 32 []) = .next t) ∧
      (∃ t, exec (.update 2) (device v .active 32 [0, 1]) = .next t) ∧
      (∃ t, exec (.update 2) (device v .active 32 [0]) = .next t) ∧
      (∃ t, exec (.finalize 63) (device v .active 32 [0]) = .next t) ∧
      (∃ t, exec (.finalize 63) (device v .active 32 []) = .next t) ∧
      (∃ t, exec (.snapshot 0) (device v .active 32 []) = .next t) ∧
      ((device v .active 32 []).inst v).regs.outlen.toNat ∈ validLengths v := by
  cases v <;> exact ⟨⟨_, rfl⟩, ⟨_, rfl⟩, ⟨_, rfl⟩, ⟨_, rfl⟩, ⟨_, rfl⟩, ⟨_, rfl⟩, ⟨_, rfl⟩, by decide +kernel⟩

theorem witness_LastMarksTheFinalByte : ([1, 2] : List Byte)[0]? = some 1 ∧ ([1, 2] : List Byte)[1]? = some 2 := by decide

theorem witness_DinByteOrder (v : Variant) : 0 < v.blockBytes ∧ v.blockBytes - 1 < v.blockBytes := by cases v <;> decide

theorem witness_IdleRegistersAreNeverRead (v : Variant) :
    ((device v .idle 32 []).inst v).phase = .idle ∧ exec (.update 0) (device v .idle 32 []) = .fault .wrongPhase ∧
      (∃ t, exec (.init 27) (device v .idle 32 []) = .next t) ∧ (∃ t, exec (.init 28) (device v .idle 32 []) = .next t) := by
  cases v <;> exact ⟨rfl, rfl, ⟨_, rfl⟩, ⟨_, rfl⟩⟩

/-- A chained device with a block to compress, a response form with a beat to transfer, and steps of both. -/
def chained (v : Variant) : State :=
  withCore (device v .active 32 [5]) v fun c =>
    { c with
      regs := { h := Config.iv v 32, bc := 0, outlen := 32 }
      cmd := [0x20000001#32] }

theorem witness_StepKeepsTheChain (v : Variant) : (chained v).Chained params ∧ ∃ t, step (chained v) = .next t := by
  constructor
  · intro u _ hu
    cases v <;> cases u <;> first | exact ⟨by decide +kernel, [], rfl, rfl⟩ | cases hu
  · cases v <;> exact ⟨_, rfl⟩

theorem witness_StepKeepsThePorts (v : Variant) :
    (sending v (.dout 7 true)).PortsInOrder ∧ ∃ t, step (sending v (.dout 7 true)) = .next t := by
  constructor
  · intro u
    cases v <;> cases u <;> exact ⟨rfl, fun i hi => nomatch hi⟩
  · cases v <;> exact ⟨_, rfl⟩

/-- A step begins a hash, one ends it, and one is a RESET in `ACTIVE`; no violation stands after any. -/
theorem witness_PhaseTransitions (v : Variant) :
    (∃ t, step (withCore (device v .idle 32 []) v fun c => { c with cmd := [0x1000001C#32] }) = .next t ∧
      (t.inst v).phase = .active ∧ (t.inst v).violation = none) ∧
    (∃ t, step (withCore (device v .active 32 [5]) v fun c => { c with cmd := [0x30000000#32] }) = .next t ∧
      (t.inst v).phase = .idle ∧ (t.inst v).violation = none) ∧
    (∃ t, step (moving v .reset) = .next t ∧ (t.inst v).phase = .idle ∧ (t.inst v).violation = none) := by
  cases v <;> exact ⟨⟨_, rfl, rfl, rfl⟩, ⟨_, rfl, rfl, rfl⟩, ⟨_, rfl, rfl, rfl⟩⟩

theorem witness_CoresAreIndependent :
    ∃ s1 s2, exec (.init 28) { device .core32 .active 32 [] with sel := .core32 } = .next s1 ∧
      exec (.init 64) { s1 with sel := .core64 } = .next s2 := ⟨_, _, rfl, rfl⟩

/-- "abc" with any fill; one block exactly, in two UPDATEs of which one is empty. -/
theorem witness_HashOutputsTheDigest (v : Variant) :
    let M : List Byte := List.replicate v.blockBytes 0x61
    let fill : List Byte := zeros v.blockBytes
    let s := device v .idle 32 (hashBeats v M fill)
    let short : List Byte := [0x61, 0x62, 0x63]
    validLength s.sel 28 = true ∧ 8 * M.length < 2 ^ v.counterBits ∧
      (([0, 1] : List Arg).map BitVec.toNat).sum = M.length / v.blockBytes ∧
      M.length % v.blockBytes + fill.length = v.blockBytes ∧ (s.inst v).din = hashBeats v M fill ++ [] ∧
      (([] : List Arg).map BitVec.toNat).sum = short.length / v.blockBytes ∧
      short.length % v.blockBytes + (zeros (v.blockBytes - 3)).length = v.blockBytes := by
  cases v <;> decide +kernel

end Sys2Proof.Tests
end

section
/-! The statements of spec/00_scope.md: what a core's turn depends on (R7, R140), and the initial vectors (R6, R71). -/

namespace Sys2Proof.Machine

/-! ### A core's turn is a function of that core -/

/-- What a command makes of its core: the answered core, or the record of its violation (R133). -/
def Inst.afterCommand {v : Variant} (c : Inst v) (i : Instr) : Inst v :=
  match commandOn params i v c with
  | .ok d => d
  | .error e => c.violate e

theorem Inst.afterCommand_of_ok {v : Variant} {c d : Inst v} {i : Instr} (h : commandOn params i v c = .ok d) :
    c.afterCommand i = d := by
  rw [Inst.afterCommand, h]

theorem Inst.afterCommand_of_error {v : Variant} {c : Inst v} {i : Instr} {e : Fault}
    (h : commandOn params i v c = .error e) : c.afterCommand i = c.violate e := by
  rw [Inst.afterCommand, h]

/-- What its turn makes of a core. It reads the core alone: neither the other core nor the turns to come (R140). -/
def Inst.afterTurn {v : Variant} (c : Inst v) : Inst v :=
  match c.action with
  | .wait => c
  | .transfer => c.transfer
  | .resume i => c.afterCommand i
  | .fetch w =>
    match decode w with
    | .ok i => c.takeCmd.afterCommand i
    | .error r => c.takeCmd.violate (reservedFault r)

/-- The cases of `Served` leave no choice: each is what `Inst.afterTurn` computes. -/
theorem Served.eq_afterTurn {v : Variant} {c d : Inst v} (h : Served c d) : d = c.afterTurn := by
  cases h with
  | waits ha => simp only [Inst.afterTurn, ha]
  | transfers ha => simp only [Inst.afterTurn, ha]
  | fetched ha hw hd => simp only [Inst.afterTurn, ha, hw, Inst.afterCommand_of_ok hd]
  | resumed ha hd => simp only [Inst.afterTurn, ha, Inst.afterCommand_of_ok hd]
  | fetchViolates ha hw hd => simp only [Inst.afterTurn, ha, hw, Inst.afterCommand_of_error hd]
  | resumeViolates ha hd => simp only [Inst.afterTurn, ha, Inst.afterCommand_of_error hd]
  | reserved ha hw => simp only [Inst.afterTurn, ha, hw]

/-- R7, R140: the step on a core's turn uses up the turn, replaces that core by what its turn makes of it, and leaves the other
core. -/
theorem step_coreTurn {s : State} {v : Variant} {rest : List Turn} (h : s.turns = .core v :: rest) :
    ∃ t, step s = .next t ∧ t.turns = rest ∧ t.inst v = (s.inst v).afterTurn ∧ ∀ u, u ≠ v → t.inst u = s.inst u := by
  obtain ⟨d, t, hserve, hserved, hself, hturns, hother⟩ := serve_served s.dropTurn v
  rw [State.dropTurn_inst] at hserved
  exact ⟨t, (step_of_core (State.turn_of_cons h)).trans hserve, by rw [hturns, State.dropTurn_turns, h, List.tail_cons],
    hself.trans hserved.eq_afterTurn, fun u hu => (hother u hu).trans (s.dropTurn_inst u)⟩

/-- Settles O14: the step puts `Inst.afterTurn` of the served core in its place on both devices, so equal cores end equal. -/
theorem coreTurnsAreIndependent : Obligations.CoreTurnsAreIndependent := by
  intro s s' v rest rest' h h' hcore
  obtain ⟨t, hstep, hturns, hself, hother⟩ := step_coreTurn h
  obtain ⟨t', hstep', hturns', hself', hother'⟩ := step_coreTurn h'
  have hsame : t'.inst v = t.inst v := by rw [hself', hself, hcore]
  exact ⟨t, t', hstep, hstep', hturns, hturns', hsame ▸ Inst.agrees_refl _, fun u hu => ⟨hother u hu, hother' u hu⟩⟩

/-! ### The initial vectors -/

/-- R75: INIT's test is membership in the table of valid lengths. -/
theorem validLength_iff {v : Variant} {len : Arg} : validLength v len = true ↔ len.toNat ∈ validLengths v :=
  List.contains_iff_mem

/-- R71: INIT with a valid length leaves the initial vector of that length. -/
theorem exec_init_hash {s : State} {len : Arg} (hv : (s.inst s.sel).violation = none) (hl : validLength s.sel len = true) :
    ∃ t, exec (.init len) s = .next t ∧ (t.inst s.sel).regs.h = Config.iv s.sel len.toNat :=
  ⟨_, exec_of_ok hv (commandOn_init_valid params _ hl), by rw [State.inst_setInst]; rfl⟩

/-- Settles O20: the lengths INIT accepts have pairwise distinct vectors (`config_iv_distinct`), and equal vectors would make the
two lengths equal. -/
theorem initialVectorsDiffer : Obligations.InitialVectorsDiffer := by
  intro s a b hv ha hb hne
  obtain ⟨t, ht, hth⟩ := exec_init_hash hv ha
  obtain ⟨u, hu, huh⟩ := exec_init_hash hv hb
  refine ⟨t, u, ht, hu, fun heq => hne (BitVec.eq_of_toNat_eq ?_)⟩
  have hiv : Config.iv s.sel a.toNat = Config.iv s.sel b.toNat := hth.symm.trans (heq.trans huh)
  exact config_iv_distinct s.sel _ (validLength_iff.mp ha) _ (validLength_iff.mp hb) hiv

end Sys2Proof.Machine
end

section
/-! The statements of spec/10_state.md: the chaining invariant (R12, R15), what each command leaves unchanged (R11, R14, R15,
R140), the registers in `IDLE` (R22), the phase transitions (R18, Table T), and the launch state (R23, R152). -/

namespace Sys2Proof.Machine

/-! ### What a step can do to the registers -/

section Registers

variable {v : Variant} {c d : Inst v}

/-- Two cores hold the same registers of Table S and the same record of violations; their ports may differ. -/
structure Inst.SameRegisters (c d : Inst v) : Prop where
  violation : d.violation = c.violation
  phase : d.phase = c.phase
  regs : d.regs = c.regs

theorem Inst.sameRegisters_refl (c : Inst v) : c.SameRegisters c := ⟨rfl, rfl, rfl⟩

theorem Inst.takeCmd_sameRegisters (c : Inst v) : c.SameRegisters c.takeCmd := ⟨rfl, rfl, rfl⟩

theorem Inst.transfer_sameRegisters (c : Inst v) : c.SameRegisters c.transfer := by
  rw [c.transfer_eq]
  exact ⟨rfl, rfl, rfl⟩

/-- R159: of the host's moves only RESET reaches the registers. -/
theorem Inst.hostMove_sameRegisters (c : Inst v) {m : HostMove v} (h : m ≠ .reset) : c.SameRegisters (c.hostMove m) := by
  cases m with
  | reset => exact absurd rfl h
  | offerCmd w => exact ⟨rfl, rfl, rfl⟩
  | offerDin b => exact ⟨rfl, rfl, rfl⟩
  | acceptRsp => exact ⟨rfl, rfl, rfl⟩
  | acceptDout => exact ⟨rfl, rfl, rfl⟩

/-- A core's turn that leaves no violation kept the registers or was a command the core took or resumed. -/
theorem Served.registers (h : Served c d) (hv : d.violation = none) :
    c.SameRegisters d ∨
      ∃ i c', c.SameRegisters c' ∧ (c.action = .resume i ∨ ∃ w, c.action = .fetch w ∧ decode w = .ok i) ∧
        commandOn params i v c' = .ok d := by
  cases h with
  | waits => exact .inl c.sameRegisters_refl
  | transfers => exact .inl c.transfer_sameRegisters
  | fetched ha hw hd => exact .inr ⟨_, _, c.takeCmd_sameRegisters, .inr ⟨_, ha, hw⟩, hd⟩
  | resumed ha hd => exact .inr ⟨_, _, c.sameRegisters_refl, .inl ha, hd⟩
  | fetchViolates => cases hv
  | resumeViolates => cases hv
  | reserved => cases hv

/-- A step that leaves no violation on a core kept that core's registers, executed a command on it, or was a RESET of it. -/
theorem step_registers {s t : State} (h : step s = .next t) (hv : (t.inst v).violation = none) :
    (s.inst v).SameRegisters (t.inst v) ∨
    (∃ i c, (s.inst v).SameRegisters c ∧ s.executes = some (v, i) ∧ commandOn params i v c = .ok (t.inst v)) ∨
    (s.turn = some (.host ⟨v, .reset⟩) ∧ t.inst v = (s.inst v).applyReset) := by
  rcases step_inst h v with ⟨hsame, -⟩ | ⟨hturn, hserved⟩ | ⟨m, hturn, hmove⟩
  · exact .inl (hsame ▸ Inst.sameRegisters_refl _)
  · rcases hserved.registers hv with hsame | ⟨i, c, hsame, ha, hd⟩
    · exact .inl hsame
    · exact .inr (.inl ⟨i, c, hsame, (State.executes_of_core hturn).mpr ha, hd⟩)
  · by_cases hm : m = .reset
    · subst hm
      exact .inr (.inr ⟨hturn, hmove⟩)
    · exact .inl (hmove ▸ Inst.hostMove_sameRegisters _ hm)

end Registers

/-! ### The chaining invariant -/

section Chain

variable {v : Variant} {P : Params} {c d : Inst v}

/-- In `IDLE` the invariant asks nothing. -/
theorem Inst.chained_of_idle (h : c.phase = .idle) : c.Chained P := by
  intro _ ha
  rw [h] at ha
  cases ha

/-- The invariant speaks of the registers only. -/
theorem Inst.SameRegisters.chained (h : c.SameRegisters d) (hc : c.Chained P) : d.Chained P := by
  rw [Inst.Chained, h.violation, h.phase, h.regs]
  exact hc

/-- R15: a valid length fits into the seven bits of `OUTLEN`. -/
theorem outlen_of_validLength {len : Arg} (h : validLength v len = true) :
    (BitVec.ofNat 7 len.toNat).toNat = len.toNat := by
  have small : ∀ n ∈ validLengths v, n < 2 ^ 7 := by cases v <;> decide
  rw [BitVec.toNat_ofNat, Nat.mod_eq_of_lt (small _ (validLength_iff.mp h))]

theorem Inst.dinBlocks_length {n : Nat} (h : n ≤ c.din.length) : (c.dinBlocks n).length = n := by
  simp [Inst.dinBlocks, h]

/-- R70: INIT begins the chain of no blocks. -/
theorem Inst.chained_of_init {len : Arg} (hl : validLength v len = true)
    (hd : d.regs = { h := P.iv v len.toNat, bc := 0, outlen := BitVec.ofNat 7 len.toNat }) : d.Chained P := by
  intro _ _
  rw [hd, outlen_of_validLength hl]
  exact ⟨validLength_iff.mp hl, [], rfl, rfl⟩

/-- R82, R83: UPDATE lengthens the chain by the blocks it compresses, and counts them. -/
theorem Inst.Chained.update (hc : c.Chained P) (blocks : List (Block v)) (hv : d.violation = c.violation)
    (hp : d.phase = c.phase)
    (hd : d.regs =
      { h := compressAll P c.regs.h blocks, bc := addBlocks c.regs.bc blocks.length, outlen := c.regs.outlen }) :
    d.Chained P := by
  intro hv' hp'
  obtain ⟨hlen, before, hh, hbc⟩ := hc (hv ▸ hv') (hp ▸ hp')
  rw [hd]
  refine ⟨hlen, before ++ blocks, ?_, ?_⟩
  · rw [compressAll_append, ← hh]
  · rw [hbc, addBlocks, List.length_append, BitVec.ofNat_add]

/-- R12: no command breaks the chain. -/
theorem commandOn_chained {i : Instr} (hc : c.Chained P) (h : commandOn P i v c = .ok d) : d.Chained P := by
  rcases commandOn_cases P c h with ⟨len, -, -, rfl⟩ | ⟨len, -, hl, rfl⟩ | ⟨-, -, -, rfl⟩ | ⟨n, -, -, hn, rfl⟩ |
    ⟨pos, buf, rest, -, -, -, -, rfl⟩ | ⟨-, -, rfl⟩
  · exact hc
  · exact Inst.chained_of_init hl rfl
  · exact hc
  · exact hc.update (c.dinBlocks n.toNat) rfl rfl (by rw [Inst.dinBlocks_length hn])
  · exact Inst.chained_of_idle rfl
  · exact hc

end Chain

/-- Settles O45: a step keeps the registers, or runs a command, which keeps the chain (`commandOn_chained`), or resets the core to
`IDLE`; after a violation the invariant asks nothing. -/
theorem stepKeepsTheChain : Obligations.StepKeepsTheChain := by
  intro s t hs h v hv
  rcases step_registers h hv with hsame | ⟨i, c, hsame, -, hd⟩ | ⟨-, hreset⟩
  · exact hsame.chained (hs v) hv
  · exact commandOn_chained (hsame.chained (hs v)) hd hv
  · exact Inst.chained_of_idle (by rw [hreset, Inst.applyReset_phase]) hv

/-! ### The launch state -/

@[simp] theorem State.reset_inst (v : Variant) : State.reset.inst v = Inst.reset v := by cases v <;> rfl

/-- Settles O46: both cores start in `IDLE`, where the invariant asks nothing. -/
theorem resetIsChained : Obligations.ResetIsChained := by
  intro v
  rw [State.reset_inst]
  exact Inst.chained_of_idle rfl

/-- Settles O16: both cores are `Inst.reset`, whose fields are the launch values. -/
theorem launchState : Obligations.LaunchState := by
  refine ⟨fun v => ?_, rfl⟩
  rw [State.reset_inst]
  exact ⟨rfl, rfl, rfl, rfl, rfl, rfl, rfl⟩

/-! ### What each command leaves unchanged -/

section Frame

variable {v : Variant} {P : Params} {c d : Inst v}

/-- No command touches the words offered, the record of transferred beats, or the host's readiness (notes/assumptions/2.md). -/
theorem commandOn_ports_frame {i : Instr} (h : commandOn P i v c = .ok d) :
    d.cmd = c.cmd ∧ d.sent = c.sent ∧ d.rspReady = c.rspReady ∧ d.doutReady = c.doutReady := by
  rcases commandOn_cases P c h with ⟨len, -, -, rfl⟩ | ⟨len, -, -, rfl⟩ | ⟨-, -, -, rfl⟩ | ⟨n, -, -, -, rfl⟩ |
    ⟨pos, buf, rest, -, -, -, -, rfl⟩ | ⟨-, -, rfl⟩ <;> exact ⟨rfl, rfl, rfl, rfl⟩

/-- R22, R99: only FINALIZE leaves registers unspecified. -/
theorem commandOn_draws {i : Instr} (h : commandOn P i v c = .ok d) (hi : ∀ pos, i ≠ .finalize pos) :
    d.draws = c.draws := by
  rcases commandOn_cases P c h with ⟨len, -, -, rfl⟩ | ⟨len, -, -, rfl⟩ | ⟨-, -, -, rfl⟩ | ⟨n, -, -, -, rfl⟩ |
    ⟨pos, buf, rest, hpos, -, -, -, -⟩ | ⟨-, -, rfl⟩
  · rfl
  · rfl
  · rfl
  · rfl
  · exact absurd hpos (hi pos)
  · rfl

/-- R15, R80: UPDATE leaves `OUTLEN` and `PHASE`. -/
theorem commandOn_update_frame {n : Arg} (h : commandOn P (.update n) v c = .ok d) :
    d.regs.outlen = c.regs.outlen ∧ d.phase = c.phase := by
  rcases commandOn_cases P c h with ⟨_, ⟨⟩, _⟩ | ⟨_, ⟨⟩, _⟩ | ⟨-, -, -, rfl⟩ | ⟨_, -, -, -, rfl⟩ |
    ⟨_, _, _, ⟨⟩, _⟩ | ⟨⟨⟩, _⟩ <;> exact ⟨rfl, rfl⟩

/-- R110: SNAPSHOT leaves the registers, `PHASE` and DIN. -/
theorem commandOn_snapshot_frame {a : Arg} (h : commandOn P (.snapshot a) v c = .ok d) :
    d.regs = c.regs ∧ d.phase = c.phase ∧ d.din = c.din := by
  rcases commandOn_cases P c h with ⟨_, ⟨⟩, _⟩ | ⟨_, ⟨⟩, _⟩ | ⟨-, -, -, rfl⟩ | ⟨_, ⟨⟩, _⟩ |
    ⟨_, _, _, ⟨⟩, _⟩ | ⟨-, -, rfl⟩ <;> exact ⟨rfl, rfl, rfl⟩

/-- R54: INIT takes no beat from DIN. -/
theorem commandOn_init_din {len : Arg} (h : commandOn P (.init len) v c = .ok d) : d.din = c.din := by
  rcases commandOn_cases P c h with ⟨_, -, -, rfl⟩ | ⟨_, -, -, rfl⟩ | ⟨-, -, -, rfl⟩ | ⟨_, ⟨⟩, _⟩ |
    ⟨_, _, _, ⟨⟩, _⟩ | ⟨⟨⟩, _⟩ <;> rfl

end Frame

/-- Settles O40: a command replaces the selected core (R140) by what it makes of it, whose frame the lemmas above give. -/
theorem commandFrame : Obligations.CommandFrame := by
  intro i s t h
  obtain ⟨-, d, hd, rfl⟩ := exec_eq_next.mp h
  rw [State.inst_setInst]
  obtain ⟨hcmd, hsent, hrsp, hdout⟩ := commandOn_ports_frame hd
  obtain ⟨beats, hout, -⟩ := commandOn_out params _ hd
  refine ⟨s.setInst_sel _ _, s.setInst_turns _ _, fun u hu => State.inst_setInst_of_ne s hu d,
    commandOn_violation params _ hd, hcmd, hsent, hrsp, hdout, ⟨beats, hout.symm⟩, commandOn_draws hd, ?_, ?_, ?_⟩
  · rintro n rfl
    exact commandOn_update_frame hd
  · rintro a rfl
    exact commandOn_snapshot_frame hd
  · rintro len rfl
    exact commandOn_init_din hd

/-! ### The registers in IDLE -/

section Idle

variable {v : Variant} (P : Params) {c : Inst v}

/-- R18, R133: in `IDLE` every command but INIT is `CV3`. -/
theorem commandOn_idle {i : Instr} (hp : c.phase = .idle) (hi : ∀ len, i ≠ .init len) :
    commandOn P i v c = .error .wrongPhase := by
  cases i with
  | init len => exact absurd rfl (hi len)
  | update n => exact commandOn_update_idle P c hp
  | finalize pos => exact commandOn_finalize_idle P c hp
  | snapshot arg => exact commandOn_snapshot_idle P c hp

/-- R22, R74: in `IDLE`, with other register values a command answers the same, or, an INIT that is rejected, the same up to the
registers, which it leaves unwritten. -/
theorem commandOn_regs_of_idle (i : Instr) (r : Regs v) (hp : c.phase = .idle) :
    commandOn P i v { c with regs := r } = commandOn P i v c ∨
      ∃ d, commandOn P i v c = .ok d ∧ d.regs = c.regs ∧
        commandOn P i v { c with regs := r } = .ok { d with regs := r } := by
  by_cases hi : ∃ len, i = .init len
  · obtain ⟨len, rfl⟩ := hi
    cases hl : validLength v len with
    | true => exact .inl (by rw [commandOn_init_valid P _ hl, commandOn_init_valid P _ hl])
    | false => exact .inr ⟨_, commandOn_init_invalid P c hl, rfl, commandOn_init_invalid P _ hl⟩
  · have hne : ∀ len, i ≠ .init len := fun len h => hi ⟨len, h⟩
    exact .inl ((commandOn_idle P (c := { c with regs := r }) hp hne).trans (commandOn_idle P hp hne).symm)

end Idle

/-- The same of `exec`: on a core with a recorded violation both outcomes are that fault (R133). -/
theorem exec_regs_of_idle (i : Instr) (s : State) (r : Regs s.sel) (hp : (s.inst s.sel).phase = .idle) :
    exec i (s.setInst s.sel { s.inst s.sel with regs := r }) = exec i s ∨
      ∃ d : Inst s.sel, exec i s = .next (s.setInst s.sel d) ∧ d.regs = (s.inst s.sel).regs ∧
        exec i (s.setInst s.sel { s.inst s.sel with regs := r }) = .next (s.setInst s.sel { d with regs := r }) := by
  rcases hv : (s.inst s.sel).violation with _ | e
  · rw [exec_setInst i s (c := { s.inst s.sel with regs := r }) hv, exec_eq_onSelected i s, State.onSelected_of_none hv]
    rcases commandOn_regs_of_idle params i r hp with h | ⟨d, hd, hregs, hr⟩
    · exact .inl (by rw [h])
    · exact .inr ⟨d, by rw [hd, State.answer_ok], hregs, by rw [hr, State.answer_ok]⟩
  · exact .inl ((exec_setInst_violated i s (c := { s.inst s.sel with regs := r }) hv).trans
      (exec_eq_fault.mpr (.inl hv)).symm)

/-- Settles O44: by `exec_regs_of_idle` the two outcomes are equal, or both are next states, which differ in the registers only. -/
theorem idleRegistersAreNeverRead : Obligations.IdleRegistersAreNeverRead := by
  rintro i s r _ rfl hp
  rcases exec_regs_of_idle i s r hp with heq | ⟨d, hd, hregs, hr⟩
  · exact ⟨fun f hf => heq.trans hf, fun t ht => .inl (heq.trans ht)⟩
  · rw [hd]
    refine ⟨fun f hf => (nomatch hf), fun t ht => .inr ⟨d, ?_⟩⟩
    cases ht
    exact ⟨State.inst_setInst _ _ _, hregs, by rw [hr, State.setInst_setInst]⟩

/-! ### Phase transitions -/

/-- R18, Table T: the only commands that change `PHASE` are a successful INIT and FINALIZE. -/
theorem commandOn_phase {v : Variant} {P : Params} {c d : Inst v} {i : Instr} (h : commandOn P i v c = .ok d)
    (hne : d.phase ≠ c.phase) :
    (d.phase = .active ∧ ∃ len, i = .init len ∧ validLength v len = true) ∨
      (d.phase = .idle ∧ ∃ pos, i = .finalize pos) := by
  rcases commandOn_cases P c h with ⟨len, -, -, rfl⟩ | ⟨len, hi, hl, rfl⟩ | ⟨-, -, -, rfl⟩ | ⟨n, -, -, -, rfl⟩ |
    ⟨pos, buf, rest, hi, -, -, -, rfl⟩ | ⟨-, -, rfl⟩
  · exact absurd rfl hne
  · exact .inl ⟨rfl, len, hi, hl⟩
  · exact absurd rfl hne
  · exact absurd rfl hne
  · exact .inr ⟨rfl, pos, hi⟩
  · exact absurd rfl hne

/-- Settles O49: a step that changes `PHASE` and leaves no violation executed a command that does so (`commandOn_phase`), or was a
RESET of that core. -/
theorem phaseTransitions : Obligations.PhaseTransitions := by
  intro s t v h hv hne
  rcases step_registers h hv with hsame | ⟨i, c, hsame, hexec, hd⟩ | ⟨hturn, hreset⟩
  · exact absurd hsame.phase hne
  · rcases commandOn_phase hd (hsame.phase ▸ hne) with ⟨hactive, len, rfl, hl⟩ | ⟨hidle, pos, rfl⟩
    · exact .inl ⟨hactive, len, hexec, hl⟩
    · exact .inr ⟨hidle, .inl ⟨pos, hexec⟩⟩
  · exact .inr ⟨by rw [hreset, Inst.applyReset_phase], .inr hturn⟩

end Sys2Proof.Machine
end

section
/-! The statements of spec/20_memory.md: the form of the ports (R34, R35, R42, R56), what a core waits for (R45, R158), the order of
command words and responses (R38, R41, R54), and the byte order of DIN and DOUT (R33, R35). -/

namespace Sys2Proof.Machine

/-! ### The byte order of DIN and DOUT -/

/-- R33: the block of a beat is the big-endian bytes of the beat. -/
theorem blockOfBeat_val (v : Variant) (beat : DinBeat v) : (blockOfBeat v beat).val = beBytes v.blockBytes beat.toNat := by
  rw [blockOfBeat, blockOf_val (beBytes_length _ _).ge, List.take_of_length_le (beBytes_length _ _).le]

/-- Settles O43: the block is `beBytes` of the beat (`blockOfBeat_val`), and a beat is below `256^B`, so `be` gives it back. -/
theorem dinByteOrder : Obligations.DinByteOrder := by
  intro v beat
  have hlt : beat.toNat < 256 ^ v.blockBytes := by
    have h := beat.isLt
    rwa [pow_mul] at h
  rw [blockOfBeat_val]
  refine ⟨beBytes_length _ _, fun k hk => beBytes_getElem? _ _ k hk, ?_⟩
  rw [beNat_beBytes, Nat.mod_eq_of_lt hlt]

/-- Settles O42, by the recursion of `doutBeats`. -/
theorem lastMarksTheFinalByte : Obligations.LastMarksTheFinalByte := by
  intro bytes
  induction bytes using doutBeats.induct with
  | case1 => exact ⟨rfl, fun k b h => by simp at h⟩
  | case2 b =>
    refine ⟨rfl, fun k x h => ?_⟩
    cases k with
    | zero => simpa [doutBeats] using h
    | succ k => simp at h
  | case3 b b' bs ih =>
    obtain ⟨hlen, hbeat⟩ := ih
    refine ⟨by rw [doutBeats, List.length_cons, hlen]; rfl, fun k x h => ?_⟩
    cases k with
    | zero => simpa [doutBeats] using h
    | succ k => simpa [doutBeats] using hbeat k x (by simpa using h)

/-! ### The response of a command -/

section Response

variable {v : Variant} {P : Params} {c d : Inst v} {i : Instr}

/-- R97: the serialized state has `SB` bytes. -/
@[simp] theorem serialize_length (h : Hash v) : (serialize h).length = stateBytes v := by
  cases v <;> simp [serialize, Hash.words, stateBytes, Variant.wordBytes]

/-- R98: a digest of a valid length has that length. -/
theorem digest_length (h : Hash v) {outlen : BitVec 7} (hl : outlen.toNat ∈ validLengths v) :
    (digest h outlen).length = outlen.toNat := by
  have small : ∀ n ∈ validLengths v, n ≤ stateBytes v := by cases v <;> decide
  rw [digest, List.length_take, serialize_length, Nat.min_eq_left (small _ hl)]

/-- R110: a snapshot has `SNAPLEN` bytes. -/
theorem snapshotBytes_length (r : Regs v) : (snapshotBytes r).length = snapBytes v := by
  cases v <;> simp [snapshotBytes, stateBytes, lengthBytes, snapBytes]

/-- R34, R56: the response code of command `i` on the core `c`, and the number of bytes it outputs. -/
structure Response (c : Inst v) (i : Instr) (code : BitVec 8) (bytes : List Byte) : Prop where
  code_ok_or_invalid : code = 0x00#8 ∨ code = 0x01#8
  invalid_iff : code = 0x01#8 ↔ ∃ len, i = .init len ∧ validLength v len = false
  no_output : ∀ a, i = .init a ∨ i = .update a → bytes = []
  digest_length : ∀ a, i = .finalize a → c.regs.outlen.toNat ∈ validLengths v → bytes.length = c.regs.outlen.toNat
  snapshot_length : ∀ a, i = .snapshot a → bytes.length = snapBytes v

/-- The response of an INIT that is rejected. -/
theorem response_init_invalid {len : Arg} (hl : validLength v len = false) :
    Response c (.init len) rspInvalidOutputSize [] where
  code_ok_or_invalid := .inr rfl
  invalid_iff := iff_of_true rfl ⟨len, rfl, hl⟩
  no_output _ _ := rfl
  digest_length _ h := nomatch h
  snapshot_length _ h := nomatch h

/-- The response of a successful INIT. -/
theorem response_init_valid {len : Arg} (hl : validLength v len = true) : Response c (.init len) rspOk [] where
  code_ok_or_invalid := .inl rfl
  invalid_iff := iff_of_false (by decide) (by rintro ⟨_, ⟨⟩, hf⟩; exact Bool.noConfusion (hl.symm.trans hf))
  no_output _ _ := rfl
  digest_length _ h := nomatch h
  snapshot_length _ h := nomatch h

/-- The response of UPDATE. -/
theorem response_update (n : Arg) : Response c (.update n) rspOk [] where
  code_ok_or_invalid := .inl rfl
  invalid_iff := iff_of_false (by decide) (by rintro ⟨_, ⟨⟩, _⟩)
  no_output _ _ := rfl
  digest_length _ h := nomatch h
  snapshot_length _ h := nomatch h

/-- The response of FINALIZE: the digest of the final chaining value. -/
theorem response_finalize (pos : Arg) (h : Hash v) : Response c (.finalize pos) rspOk (digest h c.regs.outlen) where
  code_ok_or_invalid := .inl rfl
  invalid_iff := iff_of_false (by decide) (by rintro ⟨_, ⟨⟩, _⟩)
  no_output _ h := h.elim (nomatch ·) (nomatch ·)
  digest_length _ _ hl := Machine.digest_length h hl
  snapshot_length _ h := nomatch h

/-- The response of SNAPSHOT. -/
theorem response_snapshot (arg : Arg) : Response c (.snapshot arg) rspOk (snapshotBytes c.regs) where
  code_ok_or_invalid := .inl rfl
  invalid_iff := iff_of_false (by decide) (by rintro ⟨_, ⟨⟩, _⟩)
  no_output _ h := h.elim (nomatch ·) (nomatch ·)
  digest_length _ h := nomatch h
  snapshot_length _ _ := snapshotBytes_length c.regs

/-- A command of which the core waits for payload: accepted, its payload not complete, and nothing changed but the wait. -/
def Waits (c : Inst v) (i : Instr) (d : Inst v) : Prop :=
  d = { c with inProgress := some i } ∧ c.accepts i = true ∧ c.din.length < i.payload

/-- A command that is done: its whole payload taken, and one response added to what is left to transfer. -/
def Responds (c : Inst v) (i : Instr) (d : Inst v) : Prop :=
  d.inProgress = none ∧ d.din = c.din.drop i.payload ∧ i.payload ≤ c.din.length ∧
    ∃ code bytes, d.out = c.out ++ .rsp code :: doutBeats bytes ∧ Response c i code bytes

/-- R34, R54: a command waits for its payload or takes exactly its payload and adds exactly one response. -/
theorem commandOn_waits_or_responds (h : commandOn P i v c = .ok d) : Waits c i d ∨ Responds c i d := by
  rcases commandOn_cases P c h with ⟨len, rfl, hl, rfl⟩ | ⟨len, rfl, hl, rfl⟩ | ⟨-, ha, hd, rfl⟩ | ⟨n, rfl, -, hn, rfl⟩ |
    ⟨pos, buf, rest, rfl, -, -, hd, rfl⟩ | ⟨rfl, -, rfl⟩
  · exact .inr ⟨rfl, rfl, Nat.zero_le _, _, _, rfl, response_init_invalid hl⟩
  · exact .inr ⟨rfl, rfl, Nat.zero_le _, _, _, rfl, response_init_valid hl⟩
  · exact .inl ⟨rfl, ha, hd⟩
  · exact .inr ⟨rfl, rfl, hn, _, _, rfl, response_update n⟩
  · exact .inr ⟨rfl, by rw [hd]; rfl, by rw [hd]; exact Nat.le_add_left 1 _, _, _, rfl, response_finalize pos _⟩
  · exact .inr ⟨rfl, rfl, Nat.zero_le _, _, _, rfl, response_snapshot 0⟩

/-- R34, R35, R56: one response has the form the ports keep. -/
theorem Response.responseForm {code : BitVec 8} {bytes : List Byte} (h : Response c i code bytes) :
    responseForm (.rsp code :: doutBeats bytes) = true := by
  rcases h.code_ok_or_invalid with rfl | rfl
  · exact lastOnFinal_doutBeats bytes
  · obtain ⟨len, hi, -⟩ := h.invalid_iff.mp rfl
    rw [h.no_output len (.inl hi)]
    rfl

end Response

/-- Settles O41: the two cases of `commandOn_waits_or_responds` on the selected core. -/
theorem oneResponsePerCommand : Obligations.OneResponsePerCommand := by
  intro i s t h
  obtain ⟨-, d, hd, rfl⟩ := exec_eq_next.mp h
  rw [State.inst_setInst]
  rcases commandOn_waits_or_responds hd with ⟨rfl, -, hlt⟩ | ⟨hdone, hdin, hle, code, bytes, hout, hr⟩
  · exact .inl ⟨rfl, rfl, rfl, hlt⟩
  · exact .inr ⟨hdone, hdin, hle, code, bytes, hout, hr.code_ok_or_invalid, hr.invalid_iff, hr.no_output, hr.digest_length,
      hr.snapshot_length⟩

/-! ### The form of the ports -/

section Ports

variable {v : Variant} {P : Params} {c d : Inst v} {i : Instr}

/-- With no command in progress the form is that of the beats alone. -/
theorem Inst.portsInOrder_of_none (hp : c.inProgress = none) (ho : responseForm c.out = true) : c.PortsInOrder :=
  ⟨ho, fun i hi => by rw [hp] at hi; cases hi⟩

@[simp] theorem Inst.transfer_inProgress : c.transfer.inProgress = c.inProgress := by rw [c.transfer_eq]

@[simp] theorem Inst.transfer_cmd : c.transfer.cmd = c.cmd := by rw [c.transfer_eq]

/-- A transfer takes the oldest beat. -/
@[simp] theorem Inst.transfer_out : c.transfer.out = c.out.tail := by
  rcases ho : c.out with _ | ⟨_ | _, rest⟩ <;> simp only [Inst.transfer, ho, List.tail]

/-- A transfer leaves the rest of the response. -/
theorem Inst.PortsInOrder.transfer (hc : c.PortsInOrder) (ha : c.action = .transfer) : c.transfer.PortsInOrder := by
  obtain ⟨-, hp, b, rest, hout, -⟩ := (Inst.action_eq_transfer c).mp ha
  refine Inst.portsInOrder_of_none (c.transfer_inProgress.trans hp) ?_
  rw [Inst.transfer_out, hout]
  exact responseForm_of_lastOnFinal (responseForm_tail (hout ▸ hc.1))

/-- A recorded violation ends the command in progress and leaves the beats. -/
theorem Inst.portsInOrder_violate (e : Fault) (ho : responseForm c.out = true) : (c.violate e).PortsInOrder :=
  Inst.portsInOrder_of_none rfl ho

/-- A command that begins with nothing left to transfer leaves the ports in order. -/
theorem commandOn_portsInOrder (ho : c.out = []) (h : commandOn P i v c = .ok d) : d.PortsInOrder := by
  rcases commandOn_waits_or_responds h with ⟨rfl, ha, hlt⟩ | ⟨hdone, -, -, code, bytes, hout, hr⟩
  · refine ⟨by rw [ho]; rfl, fun j hj => ?_⟩
    cases hj
    exact ⟨ho, ha, Nat.zero_lt_of_lt hlt⟩
  · refine Inst.portsInOrder_of_none hdone ?_
    rw [hout, ho]
    exact hr.responseForm

/-- A core's turn keeps the form. -/
theorem Served.portsInOrder (h : Served c d) (hc : c.PortsInOrder) : d.PortsInOrder := by
  cases h with
  | waits => exact hc
  | transfers ha => exact hc.transfer ha
  | fetched ha _ hd =>
    obtain ⟨-, -, ho, -⟩ := (Inst.action_eq_fetch c).mp ha
    exact commandOn_portsInOrder (c := c.takeCmd) ho hd
  | resumed ha hd =>
    obtain ⟨-, hp, -⟩ := (Inst.action_eq_resume c).mp ha
    obtain ⟨ho, -⟩ := hc.2 _ hp
    exact commandOn_portsInOrder ho hd
  | fetchViolates => exact Inst.portsInOrder_violate _ hc.1
  | resumeViolates => exact Inst.portsInOrder_violate _ hc.1
  | reserved => exact Inst.portsInOrder_violate _ hc.1

/-- A host move keeps the form: RESET empties the ports, and an offer or a readiness reaches neither the beats to transfer, the
command in progress, nor `PHASE`. -/
theorem Inst.PortsInOrder.hostMove (hc : c.PortsInOrder) (m : HostMove v) : (c.hostMove m).PortsInOrder := by
  cases m with
  | reset => exact Inst.portsInOrder_of_none rfl rfl
  | offerCmd w => exact ⟨hc.1, hc.2⟩
  | offerDin b => exact ⟨hc.1, hc.2⟩
  | acceptRsp => exact ⟨hc.1, hc.2⟩
  | acceptDout => exact ⟨hc.1, hc.2⟩

end Ports

/-- Settles O47: a step leaves a core, serves it, or makes a host move at it, and each keeps the form. -/
theorem stepKeepsThePorts : Obligations.StepKeepsThePorts := by
  intro s t hs h v
  rcases step_inst h v with ⟨hsame, -⟩ | ⟨-, hserved⟩ | ⟨m, -, hmove⟩
  · rw [hsame]
    exact hs v
  · exact hserved.portsInOrder (hs v)
  · rw [hmove]
    exact (hs v).hostMove m

/-! ### What a core waits for, and the order of command words -/

/-- Settles O9, along the branches of `Inst.action`: a recorded violation, a command in progress, a beat to transfer, a command word
offered, and nothing of them. -/
theorem coreWaitsExactlyForTheHost : Obligations.CoreWaitsExactlyForTheHost := by
  intro v c
  rcases hv : c.violation with _ | e
  · rcases hp : c.inProgress with _ | i
    · rcases ho : c.out with _ | ⟨code | ⟨byte, last⟩, rest⟩
      · rcases hc : c.cmd with _ | ⟨w, ws⟩ <;> simp [Inst.action, hv, hp, ho, hc]
      · simp [Inst.action, hv, hp, ho, Inst.hostReady]
      · simp [Inst.action, hv, hp, ho, Inst.hostReady]
    · simp [Inst.action, hv, hp]
  · simp [c.action_of_violation hv]

/-- R42: the turn of a core with a command in progress or a beat left to transfer takes no command word. -/
theorem Served.cmd_eq {v : Variant} {c d : Inst v} (h : Served c d) (hbusy : c.inProgress ≠ none ∨ c.out ≠ []) :
    d.cmd = c.cmd := by
  have hfetch : ∀ w, c.action ≠ .fetch w := fun w ha => by
    obtain ⟨-, hp, ho, -⟩ := (Inst.action_eq_fetch c).mp ha
    exact hbusy.elim (absurd hp) (absurd ho)
  cases h with
  | waits => rfl
  | transfers => exact Inst.transfer_cmd
  | fetched ha => exact absurd ha (hfetch _)
  | resumed _ hd => exact (commandOn_ports_frame hd).1
  | fetchViolates ha => exact absurd ha (hfetch _)
  | resumeViolates => rfl
  | reserved ha => exact absurd ha (hfetch _)

/-- R31: of the host's moves only RESET withdraws a command word that is offered. -/
theorem Inst.cmd_prefix_hostMove {v : Variant} (c : Inst v) {m : HostMove v} (h : m ≠ .reset) :
    c.cmd <+: (c.hostMove m).cmd := by
  cases m with
  | reset => exact absurd rfl h
  | offerCmd w => exact List.prefix_append _ _
  | offerDin b => exact List.prefix_rfl
  | acceptRsp => exact List.prefix_rfl
  | acceptDout => exact List.prefix_rfl

/-- Settles O15: the turn of such a core takes no word (`Served.cmd_eq`), and the host's moves other than RESET only add words. -/
theorem commandWordWaitsItsTurn : Obligations.CommandWordWaitsItsTurn := by
  intro s t v h hbusy hreset
  rcases step_inst h v with ⟨hsame, -⟩ | ⟨-, hserved⟩ | ⟨m, hturn, hmove⟩
  · rw [hsame]
  · rw [hserved.cmd_eq hbusy]
  · rw [hmove]
    exact Inst.cmd_prefix_hostMove _ fun hm => hreset (hm ▸ hturn)

/-! ### One turn of a core or of the host -/

section Turns

variable {s : State} {v : Variant}

/-- The turn of a core that takes a command word. -/
theorem step_of_fetch {w : CmdWord} {i : Instr} (h : s.turn = some (.core v)) (ha : (s.inst v).action = .fetch w)
    (hw : decode w = .ok i) :
    step s = (s.dropTurn.takeCmd v).contain v (exec i (s.dropTurn.takeCmd v)) := by
  rw [step_of_core h]
  simp only [State.serve, State.dropTurn_inst, ha, hw]

/-- The turn of a core whose command in progress has its payload. -/
theorem step_of_resume {i : Instr} (h : s.turn = some (.core v)) (ha : (s.inst v).action = .resume i) :
    step s = s.dropTurn.contain v (exec i (s.dropTurn.select v)) := by
  rw [step_of_core h]
  simp only [State.serve, State.dropTurn_inst, ha]

/-- The turn of a core whose oldest output beat the host accepts. -/
theorem step_of_transfer (h : s.turn = some (.core v)) (ha : (s.inst v).action = .transfer) :
    step s = .next (s.dropTurn.setInst v (s.inst v).transfer) := by
  rw [step_of_core h]
  simp only [State.serve, State.dropTurn_inst, ha]

/-- The host's turn at the ports of a core. -/
theorem step_of_hostMove {m : HostMove v} {rest : List Turn} (h : s.turns = .host ⟨v, m⟩ :: rest) :
    step s = .next (({ s with turns := rest } : State).setInst v ((s.inst v).hostMove m)) := by
  rw [step_of_host (State.turn_of_cons h), State.hostStep, State.dropTurn_inst, State.dropTurn_of_cons h]

end Turns

/-- Settles O4: such a core takes the word (`Inst.action_eq_fetch`), and what the step answers is the contained command. -/
theorem stepRunsDecodedCommand : Obligations.StepRunsDecodedCommand := by
  rintro s _ v w ws i _ rfl hturn hv hp ho hc hw rfl
  have ha : (s.inst v).action = .fetch w := (Inst.action_eq_fetch _).mpr ⟨hv, hp, ho, ws, hc⟩
  have htaken : s.dropTurn.takeCmd v =
      ({ s with sel := v, turns := s.turns.tail } : State).setInst v { s.inst v with cmd := ws } := by
    rw [State.takeCmd, State.dropTurn_inst, Inst.takeCmd, hc, List.tail_cons]
    rfl
  rw [step_of_fetch hturn ha hw, htaken]
  refine ⟨fun t ht => by rw [ht, State.contain_next], fun e he => ?_⟩
  rw [he, State.contain_fault, State.inst_setInst]

/-- Settles O6: such a core resumes (`Inst.action_eq_resume`), and what the step answers is the contained command. -/
theorem stepResumesWaitingCommand : Obligations.StepResumesWaitingCommand := by
  rintro s _ v i _ rfl hturn hv hp hd rfl
  have ha : (s.inst v).action = .resume i := (Inst.action_eq_resume _).mpr ⟨hv, hp, hd⟩
  have hselect : s.dropTurn.select v = { s with sel := v, turns := s.turns.tail } := rfl
  rw [step_of_resume hturn ha, hselect]
  refine ⟨fun t ht => by rw [ht, State.contain_next], fun e he => ?_⟩
  rw [he, State.contain_fault, State.dropTurn_inst]
  rfl

/-- Settles O7: the core transfers (`Inst.action_eq_transfer`), and the transfer does what the kind of the beat says. -/
theorem stepTransfersOldestBeat : Obligations.StepTransfersOldestBeat := by
  rintro s v rest _ rfl hturn hv hp
  refine ⟨fun code ho hr => ?_, fun byte last ho hr => ?_⟩
  · have ha : (s.inst v).action = .transfer :=
      (Inst.action_eq_transfer _).mpr ⟨hv, hp, _, _, ho, decide_eq_true hr⟩
    rw [step_of_transfer hturn ha]
    simp only [Inst.transfer, ho, State.dropTurn]
  · have ha : (s.inst v).action = .transfer :=
      (Inst.action_eq_transfer _).mpr ⟨hv, hp, _, _, ho, decide_eq_true hr⟩
    rw [step_of_transfer hturn ha]
    simp only [Inst.transfer, ho, State.dropTurn]

/-- Settles O11: on the host's turn the step is its move (`step_of_hostMove`), and each move writes the one port it names. -/
theorem hostOffersReachTheirPort : Obligations.HostOffersReachTheirPort := by
  rintro s v m rest _ rfl h
  rw [step_of_hostMove h]
  refine ⟨?_, ?_, ?_, ?_⟩
  · rintro w rfl
    rw [Inst.hostMove_offerCmd]
  · rintro b rfl
    rw [Inst.hostMove_offerDin]
  · rintro rfl
    rw [Inst.hostMove_acceptRsp]
  · rintro rfl
    rw [Inst.hostMove_acceptDout]

/-! ### Commands that wait for payload -/

/-- Settles O22: the waiting case of UPDATE on the selected core. -/
theorem updateWaitsForItsBlocks : Obligations.UpdateWaitsForItsBlocks := by
  rintro s n _ rfl hv hp hd
  exact exec_of_ok hv (commandOn_update_waits params _ hp hd)

/-- Settles O26: the waiting case of FINALIZE on the selected core. -/
theorem finalizeWaitsForItsBuffer : Obligations.FinalizeWaitsForItsBuffer := by
  rintro s pos _ rfl hv hp hb hd
  exact exec_of_ok hv (commandOn_finalize_waits params _ hp hb hd)

end Sys2Proof.Machine
end

section
/-! The statements of spec/30_encoding.md about command words: decoder and encoder are inverse (R50 to R53), the verdict on every
word (R53), the printed words (R57), and the violation of a reserved word (R53, R133, R136). -/

namespace Sys2Proof

/-! ### The decoder's verdict on each kind of word -/

section Decoder

variable {w : CmdWord} {i : Instr}

/-- R53: whether an operation code is 0 or 5 to 15, which Table O reserves. -/
def ReservedOpcode (op : BitVec 4) : Prop := op.toNat = 0 ∨ 5 ≤ op.toNat

/-- R53: whether a word's fields are those of command `i`. -/
structure HasFieldsOf (w : CmdWord) (i : Instr) : Prop where
  rsv : rsvField w = 0
  op : opField w = i.opcode
  arg : argField w = i.arg

/-- R53, R136: a word with `rsv ≠ 0` is `CV2`, whatever its other fields are. -/
theorem decode_of_rsvField_ne (h : rsvField w ≠ 0) : decode w = .error .bits := if_pos h

/-- R53: a word with `rsv = 0` and a reserved operation code is `CV1`. -/
theorem decode_of_reservedOpcode (hr : rsvField w = 0) (ho : ReservedOpcode (opField w)) : decode w = .error .op := by
  have hne : ∀ n : BitVec 4, 1 ≤ n.toNat → n.toNat ≤ 4 → opField w ≠ n := by
    rintro _ h1 h4 rfl
    exact ho.elim (by omega) (by omega)
  rw [decode, if_neg (not_not.mpr hr), if_neg (hne _ (by decide) (by decide)), if_neg (hne _ (by decide) (by decide)),
    if_neg (hne _ (by decide) (by decide)), if_neg (hne _ (by decide) (by decide))]

/-- R51, R53: a word with the fields of a command is that command. -/
theorem decode_of_hasFieldsOf (h : HasFieldsOf w i) : decode w = .ok i := by
  obtain ⟨hr, ho, ha⟩ := h
  cases i <;> simp [decode, hr, ho, ha, Instr.opcode, Instr.arg]

/-- Table O: a code is that of a command, whatever the operand, or it is reserved. -/
theorem opcode_cases (op : BitVec 4) (a : Arg) : (∃ i : Instr, op = i.opcode ∧ a = i.arg) ∨ ReservedOpcode op := by
  have hop : op = 1 ∨ op = 2 ∨ op = 3 ∨ op = 4 ∨ op.toNat = 0 ∨ 5 ≤ op.toNat := by revert op; decide
  rcases hop with rfl | rfl | rfl | rfl | hreserved
  · exact .inl ⟨.init a, rfl, rfl⟩
  · exact .inl ⟨.update a, rfl, rfl⟩
  · exact .inl ⟨.finalize a, rfl, rfl⟩
  · exact .inl ⟨.snapshot a, rfl, rfl⟩
  · exact .inr hreserved

/-- R53: the three kinds of words. -/
theorem word_cases (w : CmdWord) :
    rsvField w ≠ 0 ∨ (rsvField w = 0 ∧ ReservedOpcode (opField w)) ∨ ∃ i, HasFieldsOf w i := by
  by_cases hr : rsvField w = 0
  · rcases opcode_cases (opField w) (argField w) with ⟨i, ho, ha⟩ | hreserved
    · exact .inr (.inr ⟨i, hr, ho, ha⟩)
    · exact .inr (.inl ⟨hr, hreserved⟩)
  · exact .inl hr

/-! Each verdict comes from its own kind of word only, since the other kinds have other verdicts. -/

theorem decode_eq_bits : decode w = .error .bits ↔ rsvField w ≠ 0 := by
  refine ⟨fun h => ?_, decode_of_rsvField_ne⟩
  rcases word_cases w with hr | ⟨hr, ho⟩ | ⟨i, hi⟩
  · exact hr
  · exact nomatch (decode_of_reservedOpcode hr ho).symm.trans h
  · exact nomatch (decode_of_hasFieldsOf hi).symm.trans h

theorem decode_eq_op : decode w = .error .op ↔ rsvField w = 0 ∧ ReservedOpcode (opField w) := by
  refine ⟨fun h => ?_, fun ⟨hr, ho⟩ => decode_of_reservedOpcode hr ho⟩
  rcases word_cases w with hr | hreserved | ⟨i, hi⟩
  · exact nomatch (decode_of_rsvField_ne hr).symm.trans h
  · exact hreserved
  · exact nomatch (decode_of_hasFieldsOf hi).symm.trans h

theorem decode_eq_ok : decode w = .ok i ↔ HasFieldsOf w i := by
  refine ⟨fun h => ?_, decode_of_hasFieldsOf⟩
  rcases word_cases w with hr | ⟨hr, ho⟩ | ⟨j, hj⟩
  · exact nomatch (decode_of_rsvField_ne hr).symm.trans h
  · exact nomatch (decode_of_reservedOpcode hr ho).symm.trans h
  · cases (decode_of_hasFieldsOf hj).symm.trans h
    exact hj

/-- R50: the word with the fields of a command is the command's encoding. -/
theorem hasFieldsOf_iff_eq_encode : HasFieldsOf w i ↔ w = encode i := by
  constructor
  · rintro ⟨hr, ho, ha⟩
    rw [← word_eq_fields w, hr, ho, ha, encode]
  · rintro rfl
    exact ⟨rsvField_encode i, opField_encode i, argField_encode i⟩

end Decoder

/-- Settles O1: both sides say that the word's fields are those of the command. -/
theorem decodeEncodeAgree : Obligations.DecodeEncodeAgree := fun _ _ =>
  decode_eq_ok.trans hasFieldsOf_iff_eq_encode

/-- Settles O2: the verdicts of the three kinds of words, where the code, as a number, is that of one of the commands. -/
theorem decoderVerdicts : Obligations.DecoderVerdicts := by
  intro w
  have hcommand : ∀ i : Instr, i.arg = argField w → rsvField w = 0 → (opField w).toNat = i.opcode.toNat →
      decode w = .ok i := fun i ha hr ho => decode_of_hasFieldsOf ⟨hr, BitVec.eq_of_toNat_eq ho, ha.symm⟩
  exact ⟨decode_eq_bits, decode_eq_op, hcommand (.init _) rfl, hcommand (.update _) rfl, hcommand (.finalize _) rfl,
    hcommand (.snapshot _) rfl⟩

/-- R50 to R53: a command's encoding decodes to it. -/
theorem decode_encode (i : Instr) : decode (encode i) = .ok i := (decodeEncodeAgree _ i).mpr rfl

/-- Settles O3: each printed word is the encoding of its command. -/
theorem printedWordsDecode : Obligations.PrintedWordsDecode :=
  ⟨decode_encode (.init 28), decode_encode (.init 32), decode_encode (.init 48), decode_encode (.init 64),
    decode_encode (.update 2), decode_encode (.finalize 55), decode_encode (.finalize 112), decode_encode (.snapshot 0)⟩

end Sys2Proof

namespace Sys2Proof.Machine

/-! ### The violation of a reserved word -/

/-- R53, R133: the turn of a core that takes a reserved word records the word's verdict on that core. -/
theorem step_of_fetch_reserved {s : State} {v : Variant} {w : CmdWord} {r : Reserved} (h : s.turn = some (.core v))
    (ha : (s.inst v).action = .fetch w) (hw : decode w = .error r) :
    step s = .next ((s.dropTurn.takeCmd v).setInst v ((s.inst v).takeCmd.violate (reservedFault r))) := by
  rw [step_of_core h]
  simp only [State.serve, State.dropTurn_inst, ha, hw, State.contain_fault, State.takeCmd_inst]

/-- R53, R136: a word with `rsv ≠ 0` or a reserved operation code has one of the two reserved verdicts, `CV2` where `rsv ≠ 0`. -/
theorem exists_reserved_verdict {w : CmdWord} (h : rsvField w ≠ 0 ∨ ReservedOpcode (opField w)) :
    ∃ r, decode w = .error r ∧ (rsvField w ≠ 0 → reservedFault r = .reservedBits) ∧
      (rsvField w = 0 → reservedFault r = .reservedOp) := by
  by_cases hr : rsvField w = 0
  · exact ⟨.op, decode_of_reservedOpcode hr (h.resolve_left (not_not.mpr hr)), fun hne => absurd hr hne, fun _ => rfl⟩
  · exact ⟨.bits, decode_of_rsvField_ne hr, fun _ => rfl, fun hz => absurd hz hr⟩

/-- Settles O5: such a core takes the word (`Inst.action_eq_fetch`), and its turn records the verdict (`step_of_fetch_reserved`),
which leaves the other core. -/
theorem reservedWordFaults : Obligations.ReservedWordFaults := by
  rintro s v w ws _ rfl hturn hv hp ho hc hw
  have ha : (s.inst v).action = .fetch w := (Inst.action_eq_fetch _).mpr ⟨hv, hp, ho, ws, hc⟩
  obtain ⟨r, hr, hbits, hop⟩ := exists_reserved_verdict hw
  refine ⟨_, step_of_fetch_reserved hturn ha hr, by simp, fun u hu => ?_, ?_, ?_⟩
  · rw [State.inst_setInst_of_ne _ hu, State.takeCmd_inst_of_ne _ hu, State.dropTurn_inst]
  · rw [State.inst_setInst, Inst.violate_violation]
    exact fun hne => congrArg some (hbits hne)
  · rw [State.inst_setInst, Inst.violate_violation]
    exact fun hz => congrArg some (hop hz)

end Sys2Proof.Machine
end

section
/-! The statement of spec/30_encoding.md about HASH (R58, R59): UPDATEs in a row (R82, R85), the padding of the whole message
against the padding of its tail (R93), and the commands of HASH in order. -/

namespace Sys2Proof.Machine

/-! ### UPDATEs in a row -/

section Updates

variable {v : Variant} (P : Params) (c : Inst v)

/-- R82, R83, R85: the core after `k` UPDATEs that carry the next `n` blocks of DIN between them. -/
def Inst.absorb (n k : Nat) : Inst v :=
  { c with
    regs :=
      { h := compressAll P c.regs.h (c.dinBlocks n)
        bc := addBlocks c.regs.bc n
        outlen := c.regs.outlen }
    inProgress := if k = 0 then c.inProgress else none
    din := c.din.drop n
    out := c.out ++ List.replicate k (.rsp rspOk) }

/-- An UPDATE with its payload is one UPDATE in a row. -/
theorem commandOn_update_absorb {n : Arg} (h : c.phase = .active) (hd : n.toNat ≤ c.din.length) :
    commandOn P (.update n) v c = .ok (c.absorb P n.toNat 1) := commandOn_update_done P c h hd

/-- No UPDATE changes nothing. -/
theorem Inst.absorb_zero : c.absorb P 0 0 = c := by simp [Inst.absorb, Inst.dinBlocks]

/-- R85: one UPDATE and then `k` more are `k + 1` in a row. -/
theorem Inst.absorb_absorb (m n k : Nat) : (c.absorb P m 1).absorb P n k = c.absorb P (m + n) (k + 1) := by
  simp [Inst.absorb, Inst.dinBlocks, List.take_add, compressAll_append, addBlocks_addBlocks, List.replicate_succ]

end Updates

/-! ### Runs of commands on one core -/

/-- R70: the core after a successful INIT. -/
def Inst.begin {v : Variant} (c : Inst v) (len : Arg) : Inst v :=
  { c with
    regs := { h := Config.iv v len.toNat, bc := 0, outlen := BitVec.ofNat 7 len.toNat }
    phase := .active
    inProgress := none
    out := c.out ++ [.rsp rspOk] }

theorem commandOn_init_begin {v : Variant} (c : Inst v) {len : Arg} (h : validLength v len = true) :
    commandOn params (.init len) v c = .ok (c.begin len) := commandOn_init_valid params c h

section Runs

variable {s : State} {v : Variant}

/-- R41: a command that answers a core hands it to the commands after it. -/
theorem runAll_cons_of_ok {i : Instr} {rest : List Instr} {c : Inst v} (hs : s.sel = v) (hv : (s.inst v).violation = none)
    (h : commandOn params i v (s.inst v) = .ok c) : runAll (i :: rest) s = runAll rest (s.setInst v c) := by
  rw [runAll, exec_of_ok_sel hs hv h]

/-- R85: UPDATEs whose payloads are all on DIN absorb them, by induction on the split. -/
theorem runAll_updates (split : List Arg) (rest : List Instr) (hs : s.sel = v) (hv : (s.inst v).violation = none)
    (hp : (s.inst v).phase = .active) (hd : (split.map BitVec.toNat).sum ≤ (s.inst v).din.length) :
    runAll (split.map .update ++ rest) s =
      runAll rest (s.setInst v ((s.inst v).absorb params (split.map BitVec.toNat).sum split.length)) := by
  induction split generalizing s with
  | nil => simp [Inst.absorb_zero]
  | cons n ns ih =>
    simp only [List.map_cons, List.sum_cons, List.cons_append, List.length_cons] at hd ⊢
    rw [runAll_cons_of_ok hs hv (commandOn_update_absorb params _ hp (by omega)), ih]
    · rw [State.inst_setInst, State.setInst_setInst, Inst.absorb_absorb]
    · rw [State.setInst_sel, hs]
    · rwa [State.inst_setInst]
    · rwa [State.inst_setInst]
    · rw [State.inst_setInst, Inst.absorb, List.length_drop]
      omega

/-- R58: the commands of HASH in order, where the last one answers a core. -/
theorem runAll_hashCommands {len : Arg} {split : List Arg} {M : List Byte} {d : Inst v} (hs : s.sel = v)
    (hv : (s.inst v).violation = none) (hl : validLength v len = true)
    (hd : (split.map BitVec.toNat).sum ≤ (s.inst v).din.length)
    (hfinal : commandOn params (.finalize (BitVec.ofNat 24 (M.length % v.blockBytes))) v
      (((s.inst v).begin len).absorb params (split.map BitVec.toNat).sum split.length) = .ok d) :
    runAll (hashCommands v len split M) s = .next (s.setInst v d) := by
  have hsel : ∀ c : Inst v, (s.setInst v c).sel = v := fun c => (s.setInst_sel v c).trans hs
  rw [hashCommands, List.append_assoc, List.singleton_append, runAll_cons_of_ok hs hv (commandOn_init_begin _ hl),
    runAll_updates split _ (hsel _) (by rwa [State.inst_setInst]) (by rw [State.inst_setInst]; rfl)
      (by rwa [State.inst_setInst]),
    State.inst_setInst, State.setInst_setInst,
    runAll_cons_of_ok (hsel _) (by rwa [State.inst_setInst]) (by rwa [State.inst_setInst]), State.setInst_setInst, runAll]

end Runs

/-! ### The padding of a message and of its tail -/

section Padding

variable {v : Variant} {M : List Byte}

/-- R58: the bytes of a message's whole blocks. -/
def messageHead (v : Variant) (M : List Byte) : List Byte := M.take (v.blockBytes * (M.length / v.blockBytes))

/-- R58: what is left of a message after its whole blocks. -/
def messageTail (v : Variant) (M : List Byte) : List Byte := M.drop (v.blockBytes * (M.length / v.blockBytes))

theorem messageHead_append_messageTail (v : Variant) (M : List Byte) : messageHead v M ++ messageTail v M = M :=
  List.take_append_drop _ M

theorem messageHead_length (v : Variant) (M : List Byte) :
    (messageHead v M).length = M.length / v.blockBytes * v.blockBytes := by
  rw [messageHead, List.length_take, Nat.min_eq_left (Nat.mul_div_le _ _), Nat.mul_comm]

@[simp] theorem messageTail_length (v : Variant) (M : List Byte) :
    (messageTail v M).length = M.length % v.blockBytes := by
  rw [messageTail, List.length_drop, Nat.mod_eq_sub]

/-- R58: the host keeps back less than a block, so the blocks of the message are those of its head. -/
theorem cut_messageHead (v : Variant) (M : List Byte) : cut v (messageHead v M) = cut v M := by
  have htail : cut v (messageTail v M) = [] := by
    rw [← List.length_eq_zero_iff, cut_length, messageTail_length, Nat.mod_div_self]
  have hcut := cut_append v _ _ (messageTail v M) (messageHead_length v M)
  rw [messageHead_append_messageTail, htail, List.append_nil] at hcut
  exact hcut.symm

/-- R93, R59: the zero fill of the tail is that of the whole message. -/
theorem zeroFill_mod (v : Variant) (len : Nat) : zeroFill v (len % v.blockBytes) = messageZeros v len := by
  cases v <;> simp only [zeroFill, messageZeros, padMark, lengthBytes, Variant.blockBytes] <;> omega

/-- R92: below the length bound the count of the whole blocks and the fill give the exact bit length. -/
theorem bitLength_message (h : 8 * M.length < 2 ^ v.counterBits) :
    (bitLength (BitVec.ofNat _ (M.length / v.blockBytes) : Count v) (M.length % v.blockBytes)).toNat = 8 * M.length := by
  have hq : M.length / v.blockBytes < 2 ^ v.counterBits := lt_of_le_of_lt (Nat.div_le_self _ _) (by omega)
  rw [bitLength, BitVec.toNat_ofNat, BitVec.toNat_ofNat, Nat.mod_eq_of_lt hq, Nat.mod_add_div, Nat.mod_eq_of_lt h]

/-- R59, R93: below the length bound the padded message is its whole blocks and then the padded tail. -/
theorem padMessage_eq (h : 8 * M.length < 2 ^ v.counterBits) :
    padMessage v M = messageHead v M ++ padTail (BitVec.ofNat _ (M.length / v.blockBytes) : Count v) (messageTail v M) := by
  rw [padTail, messageTail_length, zeroFill_mod, bitLength_message h, padMessage]
  simp only [← List.append_assoc, messageHead_append_messageTail]

/-- R59: the blocks of the padded message are the whole blocks of the message and then those FINALIZE makes of its tail. -/
theorem cut_padMessage (h : 8 * M.length < 2 ^ v.counterBits) :
    cut v (padMessage v M) =
      cut v M ++ cut v (padTail (BitVec.ofNat _ (M.length / v.blockBytes) : Count v) (messageTail v M)) := by
  rw [padMessage_eq h, cut_append v _ _ _ (messageHead_length v M), cut_messageHead]

end Padding

/-! ### HASH -/

section Hash

variable {v : Variant} {M fill : List Byte}

/-- R52, R58: the fill count of a message's tail is below `B`, so it fits into the operand of FINALIZE. -/
theorem finalizeOperand_toNat (v : Variant) (M : List Byte) :
    (BitVec.ofNat 24 (M.length % v.blockBytes)).toNat = M.length % v.blockBytes := by
  have hlt : M.length % v.blockBytes < v.blockBytes := Nat.mod_lt _ (blockBytes_pos v)
  have hB : v.blockBytes ≤ 2 ^ 24 := by cases v <;> decide
  rw [BitVec.toNat_ofNat, Nat.mod_eq_of_lt (lt_of_lt_of_le hlt hB)]

/-- R58: the beat of HASH that carries the tail and the fill. -/
def tailBeat (v : Variant) (M fill : List Byte) : DinBeat v := beatOfBlock v (blockOf v (messageTail v M ++ fill))

/-- R58: the beats of HASH are those of the whole blocks and then that of the tail. -/
theorem hashBeats_eq (v : Variant) (M fill : List Byte) :
    hashBeats v M fill = (cut v M).map (beatOfBlock v) ++ [tailBeat v M fill] := rfl

/-- R33: the blocks of the whole-block beats are the blocks of the message. -/
theorem map_blockOfBeat_beatOfBlock (blocks : List (Block v)) :
    (blocks.map (beatOfBlock v)).map (blockOfBeat v) = blocks := by
  simp [Function.comp_def, blockOfBeat_beatOfBlock]

/-- R54: the message bytes FINALIZE reads from the last beat are the tail, whatever the fill. -/
theorem take_tailBeat (hfill : M.length % v.blockBytes + fill.length = v.blockBytes) :
    (blockOfBeat v (tailBeat v M fill)).val.take (M.length % v.blockBytes) = messageTail v M := by
  have hlen : (messageTail v M ++ fill).length = v.blockBytes := by rw [List.length_append, messageTail_length, hfill]
  rw [tailBeat, blockOfBeat_beatOfBlock, blockOf_val hlen.ge, List.take_of_length_le hlen.le,
    List.take_left' (messageTail_length v M)]

/-- R82, R90: FINALIZE after the whole blocks of a message ends in the fold over the blocks of the padded message. -/
theorem finalHash_message (P : Params) (iv : Hash v) (outlen : BitVec 7) (h : 8 * M.length < 2 ^ v.counterBits) :
    finalHash P { h := compressAll P iv (cut v M), bc := addBlocks 0 (M.length / v.blockBytes), outlen := outlen }
      (messageTail v M) = compressAll P iv (cut v (padMessage v M)) := by
  rw [cut_padMessage h, compressAll_append]
  simp [finalHash, addBlocks]

/-- R58, R82: after INIT and UPDATEs that carry the whole blocks of a message, the registers hold their fold and their count, and
the tail's beat is next on DIN. -/
theorem absorb_message {c : Inst v} {rest : List (DinBeat v)} (len : Arg) (k : Nat)
    (hd : c.din = hashBeats v M fill ++ rest) :
    ((c.begin len).absorb params (M.length / v.blockBytes) k).regs =
        { h := compressAll params (Config.iv v len.toNat) (cut v M)
          bc := addBlocks 0 (M.length / v.blockBytes)
          outlen := BitVec.ofNat 7 len.toNat } ∧
      ((c.begin len).absorb params (M.length / v.blockBytes) k).din = tailBeat v M fill :: rest := by
  have hdin : (c.begin len).din = (cut v M).map (beatOfBlock v) ++ tailBeat v M fill :: rest := by
    rw [Inst.begin, hd, hashBeats_eq, List.append_assoc]
    rfl
  have hlen : ((cut v M).map (beatOfBlock v)).length = M.length / v.blockBytes := by rw [List.length_map, cut_length]
  have hblocks : (c.begin len).dinBlocks (M.length / v.blockBytes) = cut v M := by
    rw [Inst.dinBlocks, hdin, List.take_left' hlen, map_blockOfBeat_beatOfBlock]
  refine ⟨?_, ?_⟩
  · simp only [Inst.absorb, hblocks]
    rfl
  · rw [Inst.absorb, hdin, List.drop_left' hlen]

/-- R90, R58: FINALIZE after the whole blocks of a message outputs the digest of the fold over the padded message. -/
theorem commandOn_finalize_message {c : Inst v} {rest : List (DinBeat v)} (P : Params) (iv : Hash v) (outlen : BitVec 7)
    (hbound : 8 * M.length < 2 ^ v.counterBits) (hfill : M.length % v.blockBytes + fill.length = v.blockBytes)
    (hp : c.phase = .active) (hdin : c.din = tailBeat v M fill :: rest)
    (hregs : c.regs =
      { h := compressAll P iv (cut v M), bc := addBlocks 0 (M.length / v.blockBytes), outlen := outlen }) :
    ∃ d, commandOn P (.finalize (BitVec.ofNat 24 (M.length % v.blockBytes))) v c = .ok d ∧
      d.out = c.out ++ .rsp rspOk :: doutBeats (digest (compressAll P iv (cut v (padMessage v M))) outlen) ∧
      d.phase = .idle ∧ d.din = rest := by
  have hpos := finalizeOperand_toNat v M
  have hlt : (BitVec.ofNat 24 (M.length % v.blockBytes)).toNat < v.blockBytes := by
    rw [hpos]
    exact Nat.mod_lt _ (blockBytes_pos v)
  refine ⟨_, commandOn_finalize_done P c hp hlt hdin, ?_, rfl, rfl⟩
  rw [hpos, take_tailBeat hfill, hregs, finalHash_message P iv outlen hbound]

end Hash

/-- Settles O51: the UPDATEs absorb the whole blocks (`absorb_message`), FINALIZE then outputs the digest of the fold over the
padded message (`commandOn_finalize_message`), and the commands run in order (`runAll_hashCommands`). -/
theorem hashOutputsTheDigest : Obligations.HashOutputsTheDigest := by
  intro s len M fill split rest hv hl hbound hsplit hfill hd
  obtain ⟨hregs, hdin⟩ := absorb_message (c := s.inst s.sel) len split.length hd
  obtain ⟨d, hfinal, hout, hphase, hrest⟩ := commandOn_finalize_message params _ _ hbound hfill rfl hdin hregs
  have hle : (split.map BitVec.toNat).sum ≤ (s.inst s.sel).din.length := by
    rw [hsplit, hd, hashBeats_eq]
    simp
  refine ⟨_, runAll_hashCommands rfl hv hl hle (by rwa [hsplit]), ?_⟩
  rw [State.inst_setInst]
  refine ⟨?_, hphase, hrest⟩
  rw [hout, digest, outlen_of_validLength hl, serialize, List.replicate_succ, List.replicate_succ']
  simp [Inst.absorb, Inst.begin, rspOk]

end Sys2Proof.Machine
end

section
/-! The statements of spec/41_init.md: INIT's word and effect (R70, R75), what a failed INIT leaves (R73), and that a successful
one reads nothing but its operand (R74, R76). -/

namespace Sys2Proof

/-- R50, R51: a command word is the operation code in the top four bits, or-ed with the operand. -/
theorem encode_eq_or (i : Instr) : encode i = (i.opcode ++ (0 : BitVec 28)) ||| i.arg.setWidth 32 := by
  have hhead : ∀ op : BitVec 4, (op ++ (0 : BitVec 4)).shiftLeftZeroExtend 24 = op ++ (0 : BitVec 28) := by decide
  rw [encode, BitVec.append_def, BitVec.setWidth'_eq, hhead]

/-- R70: INIT's word. -/
theorem encode_init (len : Arg) : encode (.init len) = 0x10000000#32 ||| len.setWidth 32 := by
  have hop : (0x1#4 ++ 0#28) = 0x10000000#32 := by decide
  exact (encode_eq_or (.init len)).trans (congrArg (· ||| len.setWidth 32) hop)

end Sys2Proof

namespace Sys2Proof.Machine

/-- Table P, R75: the lengths INIT accepts, per variant. -/
theorem validLength_eq_true_iff (v : Variant) (len : Arg) :
    validLength v len = true ↔
      (v = .core32 ∧ (len = 28 ∨ len = 32)) ∨ (v = .core64 ∧ (len = 28 ∨ len = 32 ∨ len = 48 ∨ len = 64)) := by
  rw [validLength_iff]
  cases v <;> simp [validLengths, BitVec.toNat_eq]

/-- Settles O17: the two cases of INIT on the selected core, where the lengths listed are those of `validLength`. -/
theorem initEffect : Obligations.InitEffect := by
  rintro s len _ rfl hv
  rw [← validLength_eq_true_iff, Bool.not_eq_true]
  exact ⟨encode_init len, fun hl => exec_of_ok hv (commandOn_init_valid params _ hl),
    fun hl => exec_of_ok hv (commandOn_init_invalid params _ hl)⟩

/-! ### Commands that do not read a part of their core -/

section Reads

variable {s s' : State} {i : Instr}

/-- A command whose core is replaced by one on which it answers the same, with the same record of violations, has the same
outcome: a recorded violation is that outcome on both (R133). -/
theorem exec_setInst_congr {c : Inst s.sel} (hv : c.violation = (s.inst s.sel).violation)
    (hc : commandOn params i s.sel c = commandOn params i s.sel (s.inst s.sel)) :
    exec i (s.setInst s.sel c) = exec i s := by
  rcases hs : (s.inst s.sel).violation with _ | e
  · rw [exec_setInst i s (hv.trans hs), exec_eq_onSelected, State.onSelected_of_none hs, hc]
  · rw [exec_setInst_violated i s (hv.trans hs), exec_eq_fault.mpr (.inl hs)]

/-- `commandOn_error_out` of the device: with other beats to transfer on its core, a command has the same fault. -/
theorem exec_fault_out {e : Fault} (o : List OutBeat) (h : exec i s = .fault e) :
    exec i (s.setInst s.sel { s.inst s.sel with out := o }) = .fault e := by
  rcases exec_eq_fault.mp h with hv | ⟨hv, he⟩
  · exact exec_setInst_violated i s hv
  · rw [exec_setInst i s (c := { s.inst s.sel with out := o }) hv, commandOn_error_out params _ o he, State.answer_error]

/-- `commandOn_out` of the device: with other beats to transfer on its core, a command adds the same beats and does the same
otherwise. -/
theorem exec_next_out (h : exec i s = .next s') :
    ∃ beats, (s'.inst s.sel).out = (s.inst s.sel).out ++ beats ∧
      ∀ o, exec i (s.setInst s.sel { s.inst s.sel with out := o }) =
        .next (s'.setInst s.sel { s'.inst s.sel with out := o ++ beats }) := by
  obtain ⟨hv, d, hd, rfl⟩ := exec_eq_next.mp h
  obtain ⟨beats, hout, hall⟩ := commandOn_out params _ hd
  rw [State.inst_setInst]
  refine ⟨beats, hout, fun o => ?_⟩
  rw [exec_setInst i s (c := { s.inst s.sel with out := o }) hv, hall o, State.answer_ok, State.setInst_setInst]

end Reads

/-- Settles O18: a failed INIT changes only the beats to transfer, which no command reads (`exec_fault_out`, `exec_next_out`). -/
theorem failedInitChangesNothing : Obligations.FailedInitChangesNothing := by
  rintro s len i _ rfl hv hl hp
  have hinit : exec (.init len) s =
      .next (s.setInst s.sel { s.inst s.sel with out := (s.inst s.sel).out ++ [.rsp rspInvalidOutputSize] }) := by
    rw [exec_of_ok hv (commandOn_init_invalid params _ hl), ← hp]
  refine ⟨_, hinit, rfl, fun f hf => exec_fault_out _ hf, fun s' hs' => ?_⟩
  obtain ⟨beats, hout, hall⟩ := exec_next_out hs'
  exact ⟨_, _, beats, rfl, hout, hall _, State.agrees_refl _⟩

/-- Settles O19: a successful INIT overwrites the registers and the phase, so INIT answers the same core for any values of
them. -/
theorem initForgetsTheRegisters : Obligations.InitForgetsTheRegisters := by
  rintro s len r p _ rfl hl
  have hsame : commandOn params (.init len) s.sel { s.inst s.sel with regs := r, phase := p } =
      commandOn params (.init len) s.sel (s.inst s.sel) := by
    rw [commandOn_init_valid params _ hl, commandOn_init_valid params _ hl]
  exact exec_setInst_congr rfl hsame

end Sys2Proof.Machine
end

section
/-! The statements of spec/42_update.md: UPDATE's word and effect (R80, R83), `UPDATE 0` (R84), and that only the sum of the block
counts matters (R85). -/

namespace Sys2Proof

/-- R80: UPDATE's word. -/
theorem encode_update (n : Arg) : encode (.update n) = 0x20000000#32 ||| n.setWidth 32 := by
  have hop : (0x2#4 ++ 0#28) = 0x20000000#32 := by decide
  exact (encode_eq_or (.update n)).trans (congrArg (· ||| n.setWidth 32) hop)

end Sys2Proof

namespace Sys2Proof.Machine

/-- R83: the counter after UPDATE, by its value. -/
theorem addBlocks_eq_ofNat_mod {v : Variant} (bc : Count v) (n : Nat) :
    addBlocks bc n = BitVec.ofNat _ ((bc.toNat + n) % 2 ^ v.counterBits) := by
  apply BitVec.eq_of_toNat_eq
  simp [addBlocks, BitVec.toNat_add]

/-- Settles O21: the two cases of UPDATE on the selected core, with the counter's value written out. -/
theorem updateEffect : Obligations.UpdateEffect := by
  rintro s n _ rfl hv
  refine ⟨encode_update n, fun hp => exec_of_error hv (commandOn_update_idle params _ hp), fun hp hd => ?_⟩
  rw [exec_of_ok hv (commandOn_update_done params _ hp hd), addBlocks_eq_ofNat_mod]
  rfl

/-- R84: an UPDATE of no blocks leaves the registers and DIN. -/
theorem Inst.absorb_zero_one {v : Variant} (P : Params) (c : Inst v) :
    c.absorb P 0 1 = { c with inProgress := none, out := c.out ++ [.rsp rspOk] } := by
  simp [Inst.absorb, Inst.dinBlocks]

/-- Settles O23: `UPDATE 0` has its payload on any DIN, and absorbs nothing. -/
theorem updateOfNoBlocks : Obligations.UpdateOfNoBlocks := by
  rintro s _ rfl hv
  refine ⟨encode_update 0, fun hp => ?_, fun hp => exec_of_error hv (commandOn_update_idle params _ hp)⟩
  have hupdate : commandOn params (.update 0) s.sel (s.inst s.sel) = .ok ((s.inst s.sel).absorb params 0 1) :=
    commandOn_update_absorb params _ hp (Nat.zero_le _)
  rw [exec_of_ok hv hupdate, Inst.absorb_zero_one]
  rfl

/-- Settles O24: UPDATEs in a row absorb the sum of their counts (`runAll_updates`), which is what the one UPDATE absorbs. -/
theorem updateSplitsAnyWay : Obligations.UpdateSplitsAnyWay := by
  intro s n split hv hp hd hsum
  have hone : exec (.update n) s = .next (s.setInst s.sel ((s.inst s.sel).absorb params n.toNat 1)) :=
    exec_of_ok hv (commandOn_update_absorb params _ hp hd)
  have hsplit : runAll (split.map .update) s =
      .next (s.setInst s.sel ((s.inst s.sel).absorb params n.toNat split.length)) := by
    have hrun := runAll_updates split [] rfl hv hp (hsum.trans_le hd)
    rwa [hsum, List.append_nil] at hrun
  refine ⟨_, _, hone, hsplit, ?_⟩
  rw [State.inst_setInst, State.inst_setInst]
  exact ⟨rfl, rfl, rfl, rfl⟩

end Sys2Proof.Machine
end

section
/-! The statements of spec/43_finalize.md: the bit length (R91, R92), the padded tail and its blocks (R93 to R95), the
serialization and its truncation (R97, R98), FINALIZE's word and effect (R90), its output for two lengths (R100), the buffer bytes
it does not read (R101), and the consumed instance (R99). -/

namespace Sys2Proof

/-- R90: FINALIZE's word. -/
theorem encode_finalize (pos : Arg) : encode (.finalize pos) = 0x30000000#32 ||| pos.setWidth 32 := by
  have hop : (0x3#4 ++ 0#28) = 0x30000000#32 := by decide
  exact (encode_eq_or (.finalize pos)).trans (congrArg (· ||| pos.setWidth 32) hop)

end Sys2Proof

namespace Sys2Proof.Machine

/-! ### The bit length -/

/-- R91: the bit length, by its value. -/
theorem bitLength_toNat {v : Variant} (bc : Count v) (pos : Nat) :
    (bitLength bc pos).toNat = (8 * (pos + v.blockBytes * bc.toNat)) % 2 ^ v.counterBits := by
  rw [bitLength, BitVec.toNat_ofNat]

/-- R91: the value of the concatenation of the low `w` bits of a counter, a fill of `k` bits and three zero bits. -/
theorem lengthFields_toNat {n : Nat} (w k : Nat) (bc : BitVec n) {pos : Nat} (h : pos < 2 ^ k) :
    (bc.extractLsb' 0 w ++ BitVec.ofNat k pos ++ 0b000#3).toNat = 8 * (pos + 2 ^ k * (bc.toNat % 2 ^ w)) := by
  have hpos : (BitVec.ofNat k pos).toNat = pos := by rw [BitVec.toNat_ofNat, Nat.mod_eq_of_lt h]
  have hbc : (bc.extractLsb' 0 w).toNat = bc.toNat % 2 ^ w := by rw [BitVec.extractLsb'_toNat, Nat.shiftRight_zero]
  have hzero : (0b000#3).toNat = 0 := rfl
  rw [BitVec.toNat_append, BitVec.toNat_append, hpos, hbc, hzero, ← Nat.shiftLeft_add_eq_or_of_lt h, Nat.or_zero,
    Nat.shiftLeft_eq, Nat.shiftLeft_eq]
  ring

/-- R91: blocks of `2^k` bytes and a smaller fill are counted back by division. -/
theorem fill_add_blocks_div {k pos : Nat} (n : Nat) (h : pos < 2 ^ k) : (pos + 2 ^ k * n) / 2 ^ k = n := by
  rw [Nat.add_mul_div_left _ _ (by positivity), Nat.div_eq_of_lt h, Nat.zero_add]

/-- R91, R92: the length modulo `2^(3 + k + w)` keeps the low `w` bits of the counter where a block has `2^k` bytes. -/
theorem length_mod_eq (w k n : Nat) {pos : Nat} (h : pos < 2 ^ k) :
    (8 * (pos + 2 ^ k * n)) % 2 ^ (3 + k + w) = 8 * (pos + 2 ^ k * (n % 2 ^ w)) := by
  have hmod : (pos + 2 ^ k * n) % 2 ^ k = pos := by rw [Nat.add_mul_mod_self_left, Nat.mod_eq_of_lt h]
  rw [Nat.add_assoc, pow_add, show 2 ^ 3 = 8 from rfl, Nat.mul_mod_mul_left, pow_add, Nat.mod_mul,
    fill_add_blocks_div n h, hmod]

/-- Settles O27: both sides keep the low bits of the counter (`length_mod_eq`, `lengthFields_toNat`), 55 or 118 of them. -/
theorem bitLengthIsConcatenation : Obligations.BitLengthIsConcatenation := by
  refine ⟨fun _ => bitLength_toNat, fun bc pos h => ?_, fun bc pos h => ?_⟩
  · rw [bitLength_toNat, lengthFields_toNat 55 6 bc h]
    exact length_mod_eq 55 6 bc.toNat h
  · rw [bitLength_toNat, lengthFields_toNat 118 7 bc h]
    exact length_mod_eq 118 7 bc.toNat h

/-- R92: the length is below `2^(3 + k + w)` exactly when the counter is below `2^w`, where a block has `2^k` bytes. -/
theorem length_lt_iff (w k n : Nat) {pos : Nat} (h : pos < 2 ^ k) :
    8 * (pos + 2 ^ k * n) < 2 ^ (3 + k + w) ↔ n < 2 ^ w := by
  calc 8 * (pos + 2 ^ k * n) < 2 ^ (3 + k + w)
      ↔ 8 * (pos + 2 ^ k * n) < 8 * (2 ^ w * 2 ^ k) := by rw [show 2 ^ (3 + k + w) = 8 * (2 ^ w * 2 ^ k) by ring]
    _ ↔ pos + 2 ^ k * n < 2 ^ w * 2 ^ k := Nat.mul_lt_mul_left (by decide)
    _ ↔ (pos + 2 ^ k * n) / 2 ^ k < 2 ^ w := (Nat.div_lt_iff_lt_mul (by positivity)).symm
    _ ↔ n < 2 ^ w := by rw [fill_add_blocks_div n h]

/-- R92: the encoded length is the exact one when that fits into `CB` bits. -/
theorem bitLength_exact_iff {v : Variant} (bc : Count v) (pos : Nat) :
    (bitLength bc pos).toNat = 8 * (pos + v.blockBytes * bc.toNat) ↔
      8 * (pos + v.blockBytes * bc.toNat) < 2 ^ v.counterBits := by
  rw [bitLength_toNat, Nat.mod_eq_iff_lt (by positivity)]

/-- Settles O28: the length fits exactly below the bound on the counter (`length_lt_iff`), and is exact when it fits
(`bitLength_exact_iff`). -/
theorem lengthExactBelowTheBound : Obligations.LengthExactBelowTheBound := by
  refine ⟨fun bc pos h => ?_, fun bc pos h => ?_⟩
  · have hfits := length_lt_iff 55 6 bc.toNat h
    exact ⟨hfits, (bitLength_exact_iff bc pos).trans hfits⟩
  · have hfits := length_lt_iff 118 7 bc.toNat h
    exact ⟨hfits, (bitLength_exact_iff bc pos).trans hfits⟩

/-! ### The padded tail -/

section Tail

variable {v : Variant} (bc : Count v) {m : List Byte}

theorem zeros_add (a b : Nat) : zeros (a + b) = zeros a ++ zeros b := List.replicate_add a b 0

/-- Table P: the length field ends the block. -/
theorem padMark_add_lengthBytes (v : Variant) : padMark v + lengthBytes v = v.blockBytes := by cases v <;> rfl

theorem zeroFill_lt (v : Variant) (pos : Nat) : zeroFill v pos < v.blockBytes := Nat.mod_lt _ (blockBytes_pos v)

/-- Table P: the mark lies inside the block. -/
theorem padMark_lt (v : Variant) : padMark v < v.blockBytes := by cases v <;> decide

/-- R93: the zero fill brings the fill to the mark of this block or of the next. -/
theorem zeroFill_reaches_padMark {pos : Nat} (h : pos < v.blockBytes) :
    (pos + 1 + zeroFill v pos) % v.blockBytes = padMark v := by
  rcases Nat.lt_or_ge pos (padMark v) with hm | hm
  · have hfill : pos + 1 + zeroFill v pos = padMark v := by
      rw [zeroFill_of_lt hm]
      omega
    rw [hfill, Nat.mod_eq_of_lt (padMark_lt v)]
  · have hfill : pos + 1 + zeroFill v pos = padMark v + v.blockBytes := by
      rw [zeroFill_of_ge hm h]
      omega
    rw [hfill, Nat.add_mod_right, Nat.mod_eq_of_lt (padMark_lt v)]

/-- R93: a number of zero bytes that brings the fill to the mark is the zero fill modulo `B`, so it is no smaller. -/
theorem zeroFill_le_of_reaches_padMark {pos z : Nat} (h : pos < v.blockBytes)
    (hz : (pos + 1 + z) % v.blockBytes = padMark v) : zeroFill v pos ≤ z := by
  have hmod : zeroFill v pos % v.blockBytes = z % v.blockBytes :=
    Nat.ModEq.add_left_cancel' (pos + 1) ((zeroFill_reaches_padMark h).trans hz.symm)
  calc zeroFill v pos = z % v.blockBytes := (Nat.mod_eq_of_lt (zeroFill_lt v pos)).symm.trans hmod
    _ ≤ z := Nat.mod_le _ _

/-- R94: below the mark the padded tail is one block long. -/
theorem padTail_length_of_lt (h : m.length < padMark v) : (padTail bc m).length = v.blockBytes := by
  rw [padTail_length_eq, zeroFill_of_lt h, ← padMark_add_lengthBytes]
  omega

/-- R94: from the mark on it is two blocks long. -/
theorem padTail_length_of_ge (h : padMark v ≤ m.length) (hB : m.length < v.blockBytes) :
    (padTail bc m).length = 2 * v.blockBytes := by
  rw [padTail_length_eq, zeroFill_of_ge h hB]
  have := padMark_add_lengthBytes v
  omega

/-- R95, case A: below the mark the one block is the whole tail. -/
theorem cut_padTail_of_lt (h : m.length < padMark v) :
    (cut v (padTail bc m)).map Subtype.val =
      [m ++ [0x80] ++ zeros (padMark v - 1 - m.length) ++ beBytes (lengthBytes v) (bitLength bc m.length).toNat] := by
  have htail : padTail bc m = m ++ [0x80] ++ zeros (padMark v - 1 - m.length) ++
      beBytes (lengthBytes v) (bitLength bc m.length).toNat := by rw [padTail, zeroFill_of_lt h]
  rw [cut_one (padTail_length_of_lt bc h), ← htail]
  rfl

/-- R95, case B: from the mark on the first block ends inside the zero fill. -/
theorem cut_padTail_of_ge (h : padMark v ≤ m.length) (hB : m.length < v.blockBytes) :
    (cut v (padTail bc m)).map Subtype.val =
      [m ++ [0x80] ++ zeros (v.blockBytes - 1 - m.length),
        zeros (padMark v) ++ beBytes (lengthBytes v) (bitLength bc m.length).toNat] := by
  have hfill : zeroFill v m.length = (v.blockBytes - 1 - m.length) + padMark v := by
    rw [zeroFill_of_ge h hB]
    omega
  have hfirst : (m ++ [0x80] ++ zeros (v.blockBytes - 1 - m.length)).length = v.blockBytes := by
    simp only [List.length_append, List.length_singleton, zeros_length]
    omega
  have hsecond : (zeros (padMark v) ++ beBytes (lengthBytes v) (bitLength bc m.length).toNat).length = v.blockBytes := by
    rw [List.length_append, zeros_length, beBytes_length, padMark_add_lengthBytes]
  have htail : padTail bc m = (m ++ [0x80] ++ zeros (v.blockBytes - 1 - m.length)) ++
      (zeros (padMark v) ++ beBytes (lengthBytes v) (bitLength bc m.length).toNat) := by
    rw [padTail, hfill, zeros_add]
    simp only [List.append_assoc]
  rw [htail, cut_append v 1 _ _ (by rw [hfirst, Nat.one_mul]), cut_one hfirst, cut_one hsecond]
  rfl

end Tail

/-- Settles O29: `zeroFill` is the least number of zero bytes that reaches the mark. -/
theorem paddingFillsToTheMark : Obligations.PaddingFillsToTheMark := fun v _ m hB =>
  ⟨zeroFill v m.length, rfl, rfl, zeroFill_lt v _, zeroFill_reaches_padMark hB,
    fun _ hz => zeroFill_le_of_reaches_padMark hB hz⟩

/-- R94: the length of the padded tail and the number of its blocks, on either side of the mark. -/
theorem padTail_blocks {v : Variant} (bc : Count v) (m : List Byte) (hB : m.length < v.blockBytes) :
    (m.length < padMark v → (padTail bc m).length = v.blockBytes ∧ (cut v (padTail bc m)).length = 1) ∧
    (padMark v ≤ m.length → (padTail bc m).length = 2 * v.blockBytes ∧ (cut v (padTail bc m)).length = 2) := by
  have hpos := blockBytes_pos v
  refine ⟨fun h => ?_, fun h => ?_⟩
  · have hlen := padTail_length_of_lt bc h
    exact ⟨hlen, by rw [cut_length, hlen, Nat.div_self hpos]⟩
  · have hlen := padTail_length_of_ge bc h hB
    exact ⟨hlen, by rw [cut_length, hlen, Nat.mul_div_cancel _ hpos]⟩

/-- Settles O30: `padTail_blocks` at the marks 56 and 112. -/
theorem oneOrTwoFinalBlocks : Obligations.OneOrTwoFinalBlocks :=
  ⟨fun bc m hB => (padTail_blocks bc m hB).imp_left fun hone h => hone (Nat.lt_succ_of_le h),
    fun bc m hB => (padTail_blocks bc m hB).imp_left fun hone h => hone (Nat.lt_succ_of_le h)⟩

/-- Settles O31: the two cases of R95. -/
theorem finalBlockLayout : Obligations.FinalBlockLayout := fun _ bc _ hB =>
  ⟨cut_padTail_of_lt bc, fun h => cut_padTail_of_ge bc h hB⟩

/-! ### Serialization and truncation -/

section Serialization

variable {α β : Type} {f : α → List β} {n : Nat}

/-- A prefix of a concatenation of pieces of `n` elements, cut after whole pieces. -/
theorem take_flatMap_of_length (hf : ∀ x, (f x).length = n) (k : Nat) (l : List α) :
    (l.flatMap f).take (n * k) = (l.take k).flatMap f := by
  induction l generalizing k with
  | nil => simp
  | cons x l ih =>
    cases k with
    | zero => simp
    | succ k =>
      have hk : n * (k + 1) = (f x).length + n * k := by rw [hf, Nat.mul_succ, Nat.add_comm]
      rw [List.flatMap_cons, hk, List.take_length_add_append, ih, List.take_succ_cons, List.flatMap_cons]

/-- What follows such a prefix. -/
theorem drop_flatMap_of_length (hf : ∀ x, (f x).length = n) (k : Nat) (l : List α) :
    (l.flatMap f).drop (n * k) = (l.drop k).flatMap f := by
  have hsplit : (l.flatMap f).take (n * k) ++ (l.flatMap f).drop (n * k) =
      (l.flatMap f).take (n * k) ++ (l.drop k).flatMap f := by
    rw [List.take_append_drop, take_flatMap_of_length hf, ← List.flatMap_append, List.take_append_drop]
  exact List.append_cancel_left hsplit

end Serialization

section Words

variable {v : Variant} (h : Hash v)

/-- R98: a cut after `k` words keeps the first `k`. -/
theorem serialize_take_words (k : Nat) :
    (serialize h).take (v.wordBytes * k) = (h.words.take k).flatMap fun x => beBytes v.wordBytes x.toNat :=
  take_flatMap_of_length (fun _ => beBytes_length _ _) k h.words

/-- R97: what follows the first `k` words. -/
theorem serialize_drop_words (k : Nat) :
    (serialize h).drop (v.wordBytes * k) = (h.words.drop k).flatMap fun x => beBytes v.wordBytes x.toNat :=
  drop_flatMap_of_length (fun _ => beBytes_length _ _) k h.words

/-- R97: byte `j` of word `i` is byte `j` of the big-endian bytes of that word. -/
theorem serialize_getElem? {i j : Nat} {x : Word v} (hx : h.words[i]? = some x) (hj : j < v.wordBytes) :
    (serialize h)[v.wordBytes * i + j]? = (beBytes v.wordBytes x.toNat)[j]? := by
  obtain ⟨hi, rfl⟩ := List.getElem?_eq_some_iff.mp hx
  rw [← List.getElem?_drop, serialize_drop_words, List.drop_eq_getElem_cons hi, List.flatMap_cons,
    List.getElem?_append_left (by rwa [beBytes_length])]

end Words

/-- Settles O32: a byte of the serialization is a byte of one word (`serialize_getElem?`), and those are its bits from
the highest on. -/
theorem serializationIsBigEndian : Obligations.SerializationIsBigEndian := by
  refine fun v h => ⟨serialize_length h, fun i j x hx hj => ?_⟩
  rw [serialize_getElem? h hx hj, beBytes_getElem? _ _ _ hj]
  rfl

/-- R98: the first bytes of a big-endian number are those of its high part. -/
theorem beBytes_take (m n x : Nat) : (beBytes (m + n) x).take m = beBytes m (x >>> (8 * n)) := by
  induction m with
  | zero => simp [beBytes]
  | succ m ih =>
    rw [Nat.succ_add, beBytes, List.take_succ_cons, ih, beBytes, ← Nat.shiftRight_add, Nat.mul_add, Nat.add_comm (8 * m)]

/-- R98: SHA-512/224 keeps three words and the high half of the fourth. -/
theorem serialize_take_28 (h : Hash .core64) :
    (serialize h).take 28 =
      (h.words.take 3).flatMap (fun x => beBytes 8 x.toNat) ++ beBytes 4 (h.h3.extractLsb' 32 32).toNat := by
  have hrest : (serialize h).drop 24 = beBytes 8 h.h3.toNat ++ (h.words.drop 4).flatMap fun x => beBytes 8 x.toNat :=
    serialize_drop_words h 3
  have hhigh : (h.h3.extractLsb' 32 32).toNat = h.h3.toNat >>> 32 := by
    have hlt : h.h3.toNat >>> 32 < 2 ^ 32 := by
      rw [Nat.shiftRight_eq_div_pow]
      exact Nat.div_lt_of_lt_mul h.h3.isLt
    rw [BitVec.extractLsb'_toNat, Nat.mod_eq_of_lt hlt]
  calc (serialize h).take 28
      = (serialize h).take 24 ++ ((serialize h).drop 24).take 4 := List.take_add (i := 24) (j := 4)
    _ = (h.words.take 3).flatMap (fun x => beBytes 8 x.toNat) ++ (beBytes 8 h.h3.toNat).take 4 := by
        rw [hrest, List.take_append_of_le_length (by simp)]
        exact congrArg (· ++ _) (serialize_take_words h 3)
    _ = (h.words.take 3).flatMap (fun x => beBytes 8 x.toNat) ++ beBytes 4 (h.h3.extractLsb' 32 32).toNat := by
        rw [hhigh, beBytes_take 4 4]

/-- Settles O33: every valid length but 28 of Core64 cuts after whole words. -/
theorem truncationKeepsTheLeft : Obligations.TruncationKeepsTheLeft := by
  refine ⟨fun h => ⟨serialize_take_words h 7, digest_length h (by decide), serialize_take_words h 8,
    digest_length h (by decide)⟩, fun h => ⟨serialize_take_words h 8, digest_length h (by decide),
    serialize_take_words h 6, digest_length h (by decide), serialize_take_words h 4, digest_length h (by decide),
    serialize_take_28 h, digest_length h (by decide)⟩⟩

/-! ### FINALIZE -/

/-- R90: the padded tail, with the fill count and the bit length written out. -/
theorem padTail_eq {v : Variant} (bc : Count v) {m : List Byte} {pos : Nat} (h : m.length = pos) :
    padTail bc m = m ++ [0x80] ++ zeros ((v.blockBytes + padMark v - (pos + 1)) % v.blockBytes) ++
      beBytes (lengthBytes v) ((8 * (pos + v.blockBytes * bc.toNat)) % 2 ^ v.counterBits) := by
  rw [padTail, h, bitLength_toNat, zeroFill]

/-- R54: the message bytes FINALIZE reads from its buffer are `pos` many. -/
theorem blockOfBeat_take_length {v : Variant} (buf : DinBeat v) {pos : Nat} (h : pos < v.blockBytes) :
    ((blockOfBeat v buf).val.take pos).length = pos := by
  rw [List.length_take, (blockOfBeat v buf).property, Nat.min_eq_left h.le]

/-- Settles O25: the cases of FINALIZE on the selected core, with the padded tail written out (`padTail_eq`). -/
theorem finalizeEffect : Obligations.FinalizeEffect := by
  rintro s pos _ rfl hv
  refine ⟨encode_finalize pos, fun hp => exec_of_error hv (commandOn_finalize_idle params _ hp),
    fun hp hb => exec_of_error hv (commandOn_finalize_outOfRange params _ hp hb), ?_⟩
  rintro buf rest _ _ hp hb hd rfl rfl
  rw [← padTail_eq _ (blockOfBeat_take_length buf hb)]
  exact ⟨_, _, exec_of_ok hv (commandOn_finalize_done params _ hp hb hd)⟩

/-- R100: two digests of one chaining value are prefixes of one serialization. -/
theorem digest_prefix_or_prefix {v : Variant} (h : Hash v) (a b : BitVec 7) :
    digest h a <+: digest h b ∨ digest h b <+: digest h a :=
  List.prefix_or_prefix_of_prefix (List.take_prefix _ _) (List.take_prefix _ _)

/-- R96, R100: the final chaining value does not read `OUTLEN`. -/
theorem finalHash_outlen {v : Variant} (P : Params) (r : Regs v) (b : BitVec 7) (m : List Byte) :
    finalHash P { r with outlen := b } m = finalHash P r m := rfl

/-- R90: what FINALIZE outputs after the selected core has been replaced by an active one with its buffer on DIN. -/
theorem exec_setInst_finalize_out (s : State) {c : Inst s.sel} {pos : Arg} {buf : DinBeat s.sel}
    {rest : List (DinBeat s.sel)} (hv : c.violation = none) (hp : c.phase = .active)
    (hb : pos.toNat < s.sel.blockBytes) (hd : c.din = buf :: rest) :
    ∃ t, exec (.finalize pos) (s.setInst s.sel c) = .next t ∧
      (t.inst s.sel).out = c.out ++ .rsp 0x00#8 ::
        doutBeats (digest (finalHash params c.regs ((blockOfBeat s.sel buf).val.take pos.toNat)) c.regs.outlen) := by
  have hdone := commandOn_finalize_done params c hp hb hd
  rw [exec_setInst _ s hv, hdone, State.answer_ok]
  exact ⟨_, rfl, by rw [State.inst_setInst]; rfl⟩

/-- Settles O34: both digests are cut from the serialization of one chaining value (`finalHash_outlen`). -/
theorem digestsArePrefixes : Obligations.DigestsArePrefixes := by
  rintro s pos b _ rfl hv hp hb hd ha hbvalid
  obtain ⟨buf, rest, hd⟩ := List.exists_cons_of_ne_nil hd
  obtain ⟨t, ht, hout⟩ := exec_setInst_finalize_out s hv hp hb hd
  obtain ⟨u, hu, hout'⟩ := exec_setInst_finalize_out s
    (c := { s.inst s.sel with regs := { (s.inst s.sel).regs with outlen := b } }) hv hp hb hd
  rw [State.setInst_inst] at ht
  rw [finalHash_outlen] at hout'
  exact ⟨t, u, _, _, ht, hu, hout, hout', digest_length _ ha, digest_length _ hbvalid, digest_prefix_or_prefix _ _ _⟩

/-- A core with other beats offered on DIN. -/
def Inst.withDin {v : Variant} (c : Inst v) (beats : List (DinBeat v)) : Inst v := { c with din := beats }

@[simp] theorem Inst.withDin_phase {v : Variant} (c : Inst v) (beats : List (DinBeat v)) :
    (c.withDin beats).phase = c.phase := rfl

/-- R101: FINALIZE on two buffers that agree on the message bytes answers the same. -/
theorem commandOn_finalize_congr {v : Variant} (P : Params) (c : Inst v) {pos : Arg} {a b : DinBeat v}
    (rest : List (DinBeat v)) (h : (blockOfBeat v a).val.take pos.toNat = (blockOfBeat v b).val.take pos.toNat) :
    commandOn P (.finalize pos) v (c.withDin (a :: rest)) = commandOn P (.finalize pos) v (c.withDin (b :: rest)) := by
  have hphase : ∀ {p}, c.phase = p → ∀ beats, (c.withDin beats).phase = p :=
    fun hp beats => (c.withDin_phase beats).trans hp
  rcases c.phase_cases with hp | hp
  · rw [commandOn_finalize_idle P _ (hphase hp _), commandOn_finalize_idle P _ (hphase hp _)]
  · rcases Nat.lt_or_ge pos.toNat v.blockBytes with hb | hb
    · rw [commandOn_finalize_done P _ (hphase hp _) hb rfl, commandOn_finalize_done P _ (hphase hp _) hb rfl, h]
      rfl
    · rw [commandOn_finalize_outOfRange P _ (hphase hp _) hb, commandOn_finalize_outOfRange P _ (hphase hp _) hb]

/-- A command on two cores with the same record of violations, on which it answers the same, has the same outcome: a recorded
violation is that outcome on both (R133). -/
theorem exec_setInst_eq_setInst {s : State} {i : Instr} {c d : Inst s.sel} (hv : c.violation = d.violation)
    (h : commandOn params i s.sel c = commandOn params i s.sel d) :
    exec i (s.setInst s.sel c) = exec i (s.setInst s.sel d) := by
  rcases hd : d.violation with _ | e
  · rw [exec_setInst i s (hv.trans hd), exec_setInst i s hd, h]
  · rw [exec_setInst_violated i s (hv.trans hd), exec_setInst_violated i s hd]

/-- Settles O35: FINALIZE answers the same for both buffers (`commandOn_finalize_congr`), so the two outcomes are equal. -/
theorem finalizeIgnoresTheTail : Obligations.FinalizeIgnoresTheTail := by
  rintro s pos a b rest _ rfl h
  have hsame : exec (.finalize pos) (s.setInst s.sel ((s.inst s.sel).withDin (a :: rest))) =
      exec (.finalize pos) (s.setInst s.sel ((s.inst s.sel).withDin (b :: rest))) :=
    exec_setInst_eq_setInst rfl (commandOn_finalize_congr params _ rest h)
  exact hsame ▸ OutcomesAgree.refl _

/-- R99: a FINALIZE that is done leaves `PHASE = IDLE`. -/
theorem commandOn_finalize_phase {v : Variant} {P : Params} {c d : Inst v} {pos : Arg}
    (h : commandOn P (.finalize pos) v c = .ok d) (hd : d.inProgress = none) : d.phase = .idle := by
  rcases commandOn_cases P c h with ⟨_, ⟨⟩, _⟩ | ⟨_, ⟨⟩, _⟩ | ⟨-, -, -, rfl⟩ | ⟨_, ⟨⟩, _⟩ |
    ⟨_, _, _, -, -, -, -, rfl⟩ | ⟨⟨⟩, _⟩
  · cases hd
  · rfl

/-- Settles O36: the consumed core is in `IDLE` (`commandOn_finalize_phase`), where every command but INIT is `CV3`. -/
theorem finalizeHappensOnce : Obligations.FinalizeHappensOnce := by
  intro s t pos h hdone
  obtain ⟨hv, d, hd, rfl⟩ := exec_eq_next.mp h
  rw [State.inst_setInst] at hdone ⊢
  have hidle : d.phase = .idle := commandOn_finalize_phase hd hdone
  have hviolation : d.violation = none := (commandOn_violation params _ hd).trans hv
  have hfault : ∀ i, (∀ len, i ≠ .init len) → exec i (s.setInst s.sel d) = .fault .wrongPhase := fun i hi => by
    rw [exec_setInst i s hviolation, commandOn_idle params hidle hi, State.answer_error]
  exact ⟨hidle, fun a => ⟨hfault _ nofun, hfault _ nofun, hfault _ nofun⟩⟩

end Sys2Proof.Machine
end

section
/-! The statements of spec/44_snapshot.md: SNAPSHOT's word and effect (R110), and that a SNAPSHOT between two commands changes
neither (R111). -/

namespace Sys2Proof

/-- R110: SNAPSHOT's word. -/
theorem encode_snapshot : encode (.snapshot 0) = 0x40000000#32 := by decide

end Sys2Proof

namespace Sys2Proof.Machine

/-- R110: the bytes of a snapshot, with `H` serialized word by word and `OUTLEN` by its value. -/
theorem snapshotBytes_eq {v : Variant} (r : Regs v) :
    snapshotBytes r = (r.h.words.flatMap fun x => beBytes v.wordBytes x.toNat) ++ beBytes (lengthBytes v) r.bc.toNat ++
      [BitVec.ofNat 8 r.outlen.toNat] := by
  rw [snapshotBytes, serialize, BitVec.ofNat_toNat]

/-- Settles O37: the three cases of SNAPSHOT on the selected core, with the bytes written out (`snapshotBytes_eq`). -/
theorem snapshotEffect : Obligations.SnapshotEffect := by
  rintro s arg _ rfl hv
  refine ⟨encode_snapshot, fun hp => exec_of_error hv (commandOn_snapshot_idle params _ hp),
    fun hp ha => exec_of_error hv (commandOn_snapshot_operand params _ hp ha), ?_⟩
  rintro hp rfl
  exact ⟨_, snapshotBytes_eq _, snapshotBytes_length _, exec_of_ok hv (commandOn_snapshot_done params _ hp)⟩

/-- R110: a SNAPSHOT that answers a next state, with no command in progress before it, changes only the beats to transfer. -/
theorem exec_snapshot_out {s t : State} (h : exec (.snapshot 0) s = .next t) (hprogress : (s.inst s.sel).inProgress = none) :
    ∃ o, t = s.setInst s.sel { s.inst s.sel with out := o } := by
  obtain ⟨-, d, hd, rfl⟩ := exec_eq_next.mp h
  rcases commandOn_cases params _ hd with ⟨_, ⟨⟩, _⟩ | ⟨_, ⟨⟩, _⟩ | ⟨-, -, hpayload, -⟩ | ⟨_, ⟨⟩, _⟩ |
    ⟨_, _, _, ⟨⟩, _⟩ | ⟨-, -, rfl⟩
  · exact absurd hpayload (Nat.not_lt_zero _)
  · exact ⟨_, by rw [← hprogress]⟩

/-- The big-endian bytes of 0. -/
@[simp] theorem beBytes_zero_right (n : Nat) : beBytes n 0 = zeros n := by
  induction n with
  | zero => rfl
  | succ n ih => rw [beBytes, ih, Nat.zero_shiftRight]; rfl

/-- R111: the bytes of a snapshot of the registers a successful INIT leaves. -/
theorem snapshotBytes_begin {v : Variant} (c : Inst v) {len : Arg} (hl : validLength v len = true) :
    snapshotBytes (c.begin len).regs = ((Config.iv v len.toNat).words.flatMap fun x => beBytes v.wordBytes x.toNat) ++
      zeros (lengthBytes v) ++ [BitVec.ofNat 8 len.toNat] := by
  have hcount : (c.begin len).regs.bc.toNat = 0 := BitVec.toNat_zero
  have houtlen : (c.begin len).regs.outlen.toNat = len.toNat := outlen_of_validLength hl
  rw [snapshotBytes_eq, hcount, houtlen, beBytes_zero_right]
  rfl

/-- R110: the core after a SNAPSHOT. -/
def Inst.showRegs {v : Variant} (c : Inst v) : Inst v :=
  { c with
    inProgress := none
    out := c.out ++ .rsp rspOk :: doutBeats (snapshotBytes c.regs) }

theorem commandOn_snapshot_showRegs {v : Variant} (P : Params) (c : Inst v) (h : c.phase = .active) :
    commandOn P (.snapshot 0) v c = .ok c.showRegs := commandOn_snapshot_done P c h

/-- R41, R111: `INIT len` and then SNAPSHOT on the selected core. -/
theorem runAll_init_snapshot {s : State} {len : Arg} (hv : (s.inst s.sel).violation = none)
    (hl : validLength s.sel len = true) :
    runAll [.init len, .snapshot 0] s = .next (s.setInst s.sel ((s.inst s.sel).begin len).showRegs) := by
  have hsnapshot := commandOn_snapshot_showRegs params ((s.inst s.sel).begin len) rfl
  rw [runAll_cons_of_ok rfl hv (commandOn_init_begin _ hl),
    runAll_cons_of_ok (s.setInst_sel _ _) (by rwa [State.inst_setInst]) (by rwa [State.inst_setInst]),
    State.setInst_setInst, runAll]

/-- Settles O38: a SNAPSHOT changes only the beats to transfer (`exec_snapshot_out`), which no command reads (`exec_fault_out`,
`exec_next_out`); after an INIT it shows what INIT left (`snapshotBytes_begin`). -/
theorem snapshotIsReadOnly : Obligations.SnapshotIsReadOnly := by
  constructor
  · intro s t i h hprogress
    obtain ⟨o, rfl⟩ := exec_snapshot_out h hprogress
    rw [State.inst_setInst]
    refine ⟨rfl, rfl, fun f hf => exec_fault_out o hf, fun s' hs' => ?_⟩
    obtain ⟨beats, hout, hall⟩ := exec_next_out hs'
    exact ⟨_, _, beats, rfl, hout, hall o, State.agrees_refl _⟩
  · intro s len hv hl
    refine ⟨_, runAll_init_snapshot hv hl, ?_⟩
    rw [State.inst_setInst, Inst.showRegs, snapshotBytes_begin _ hl]
    simp [Inst.begin, rspOk]

end Sys2Proof.Machine
end

section
/-! The statements of spec/60_exceptions.md: when a command is a violation (R132, R133), how long a recorded violation stands (R133),
that the cores are independent (R140), and the order of the turns (R141, R150, R158). -/

namespace Sys2Proof.Machine

/-! ### A core with a recorded violation -/

section Violated

variable {v : Variant} {c d : Inst v} {e : Fault}

/-- R133: its turn leaves such a core as it is, since it waits, and every other case of a turn needs a core that acts. -/
theorem Served.eq_of_violation (h : Served c d) (hv : c.violation = some e) : d = c := by
  have hwait : c.action = .wait := c.action_of_violation hv
  cases h with
  | waits => rfl
  | transfers ha => exact nomatch hwait.symm.trans ha
  | fetched ha => exact nomatch hwait.symm.trans ha
  | resumed ha => exact nomatch hwait.symm.trans ha
  | fetchViolates ha => exact nomatch hwait.symm.trans ha
  | resumeViolates ha => exact nomatch hwait.symm.trans ha
  | reserved ha => exact nomatch hwait.symm.trans ha

/-- R31, R133: of the host's moves only RESET reaches the recorded violation or the record of transferred beats. -/
theorem Inst.hostMove_records (c : Inst v) {m : HostMove v} (h : m ≠ .reset) :
    (c.hostMove m).violation = c.violation ∧ (c.hostMove m).sent = c.sent := by
  cases m with
  | reset => exact absurd rfl h
  | offerCmd w => exact ⟨rfl, rfl⟩
  | offerDin b => exact ⟨rfl, rfl⟩
  | acceptRsp => exact ⟨rfl, rfl⟩
  | acceptDout => exact ⟨rfl, rfl⟩

/-- R133: no step executes a command on such a core. -/
theorem State.executes_ne_of_violation {s : State} (hv : (s.inst v).violation = some e) (i : Instr) :
    s.executes ≠ some (v, i) := by
  intro h
  have hwait : (s.inst v).action = .wait := (s.inst v).action_of_violation hv
  rcases (State.executes_of_core (State.turn_of_executes h)).mp h with ha | ⟨w, ha, -⟩
  · exact nomatch hwait.symm.trans ha
  · exact nomatch hwait.symm.trans ha

end Violated

/-- Settles O13: the step leaves such a core alone, serves it, which changes nothing (`Served.eq_of_violation`), or makes a host
move at it that is no RESET (`Inst.hostMove_records`). -/
theorem violationStandsUntilReset : Obligations.ViolationStandsUntilReset := by
  intro s t v e h hv hreset
  have hrecords : (t.inst v).violation = (s.inst v).violation ∧ (t.inst v).sent = (s.inst v).sent := by
    rcases step_inst h v with ⟨hsame, -⟩ | ⟨-, hserved⟩ | ⟨m, hturn, hmove⟩
    · rw [hsame]
      exact ⟨rfl, rfl⟩
    · rw [hserved.eq_of_violation hv]
      exact ⟨rfl, rfl⟩
    · rw [hmove]
      exact Inst.hostMove_records _ fun hm => hreset (hm ▸ hturn)
  exact ⟨hrecords.1.trans hv, State.executes_ne_of_violation hv, hrecords.2⟩

/-! ### Which commands are violations -/

section Accepts

variable {v : Variant} (P : Params) (c : Inst v) {i : Instr}

/-- R133: the commands a core accepts, by name. -/
theorem Inst.accepts_iff :
    c.accepts i = true ↔
      (∃ len, i = .init len) ∨
        (c.phase = .active ∧
          ((∃ n, i = .update n) ∨ (∃ pos, i = .finalize pos ∧ pos.toNat < v.blockBytes) ∨ i = .snapshot 0)) := by
  cases i <;> simp [Inst.accepts, Instr.wellFormed]

/-- R132, R133: a command answers a core exactly when that core accepts it. -/
theorem exists_commandOn_eq_ok : (∃ d, commandOn P i v c = .ok d) ↔ c.accepts i = true := by
  rw [Inst.accepts_iff]
  constructor
  · rintro ⟨d, h⟩
    rcases commandOn_cases P c h with ⟨len, hi, -⟩ | ⟨len, hi, -⟩ | ⟨-, ha, -⟩ | ⟨n, hi, hp, -⟩ |
      ⟨pos, buf, rest, hi, hp, hb, -⟩ | ⟨hi, hp, -⟩
    · exact .inl ⟨len, hi⟩
    · exact .inl ⟨len, hi⟩
    · exact c.accepts_iff.mp ha
    · exact .inr ⟨hp, .inl ⟨n, hi⟩⟩
    · exact .inr ⟨hp, .inr (.inl ⟨pos, hi, hb⟩)⟩
    · exact .inr ⟨hp, .inr (.inr hi)⟩
  · rintro (⟨len, rfl⟩ | ⟨hp, ⟨n, rfl⟩ | ⟨pos, rfl, hb⟩ | rfl⟩)
    · cases hl : validLength v len with
      | true => exact ⟨_, commandOn_init_valid P c hl⟩
      | false => exact ⟨_, commandOn_init_invalid P c hl⟩
    · rcases Nat.lt_or_ge c.din.length n.toNat with hd | hd
      · exact ⟨_, commandOn_update_waits P c hp hd⟩
      · exact ⟨_, commandOn_update_done P c hp hd⟩
    · rcases hd : c.din with _ | ⟨buf, rest⟩
      · exact ⟨_, commandOn_finalize_waits P c hp hb hd⟩
      · exact ⟨_, commandOn_finalize_done P c hp hb hd⟩
    · exact ⟨_, commandOn_snapshot_done P c hp⟩

end Accepts

/-- A command answers a next state exactly when no violation stands on its core and the core accepts it. -/
theorem exists_exec_eq_next {i : Instr} {s : State} :
    (∃ t, exec i s = .next t) ↔ (s.inst s.sel).violation = none ∧ (s.inst s.sel).accepts i = true := by
  rw [← exists_commandOn_eq_ok params]
  constructor
  · rintro ⟨t, h⟩
    obtain ⟨hv, d, hd, -⟩ := exec_eq_next.mp h
    exact ⟨hv, d, hd⟩
  · rintro ⟨hv, d, hd⟩
    exact ⟨_, exec_of_ok hv hd⟩

/-- Settles O39: the commands the selected core accepts (`exists_exec_eq_next`) are those listed (`Inst.accepts_iff`). -/
theorem commandsFaultOnlyOnViolations : Obligations.CommandsFaultOnlyOnViolations := fun _ _ =>
  ⟨exists_exec_eq_next.trans (and_congr_right' (Inst.accepts_iff _)), exec_ne_refused⟩

/-! ### The two cores -/

/-- `exec_eq_next` for a core selected by name. -/
theorem exec_select_eq_next {i : Instr} {s t : State} {v : Variant} :
    exec i (s.select v) = .next t ↔
      (s.inst v).violation = none ∧ ∃ c, commandOn params i v (s.inst v) = .ok c ∧ t = (s.select v).setInst v c := by
  rw [exec_eq_next, State.select_sel, State.select_inst]

/-- Settles O50: a command reads and replaces the selected core alone (`exec_select_eq_next`), so either order puts the same two
cores in place. -/
theorem coresAreIndependent : Obligations.CoresAreIndependent := by
  intro s s1 s2 i j hi hj
  obtain ⟨hv32, c, hc, rfl⟩ := exec_select_eq_next.mp hi
  obtain ⟨hv64, d, hd, rfl⟩ := exec_select_eq_next.mp hj
  refine ⟨_, _, exec_select_eq_next.mpr ⟨hv64, d, hd, rfl⟩, exec_select_eq_next.mpr ⟨hv32, c, hc, rfl⟩, rfl, fun v => ?_⟩
  cases v with
  | core32 => exact c.agrees_refl
  | core64 => exact d.agrees_refl

/-! ### The order of the turns -/

section Turns

variable {s : State}

/-- With no turn given Core32 goes first. -/
theorem State.turn_of_core32_acts (h : s.turns = []) (h32 : s.core32.action ≠ .wait) : s.turn = some (.core .core32) := by
  simp only [State.turn, h, if_pos h32]

/-- Core64 goes where Core32 waits. -/
theorem State.turn_of_core64_acts (h : s.turns = []) (h32 : s.core32.action = .wait) (h64 : s.core64.action ≠ .wait) :
    s.turn = some (.core .core64) := by
  simp only [State.turn, h, if_neg (not_not.mpr h32), if_pos h64]

/-- The turn of a core that waits uses up the turn only. -/
theorem step_of_wait {v : Variant} (h : s.turn = some (.core v)) (ha : (s.inst v).action = .wait) :
    step s = .next s.dropTurn := by
  rw [step_of_core h]
  simp only [State.serve, State.dropTurn_inst, ha]

/-- The device rests in its state where no violation stands. -/
theorem State.rest_of_no_violation (h : s.violation = none) : s.rest = .next s := by
  rw [State.rest, h]

/-- Where a violation stands its rest is the end of the run (R133). -/
theorem State.rest_of_violation {e : Fault} (h : s.violation = some e) : s.rest = .fault e := by
  rw [State.rest, h]

/-- The violation of the device is that of Core32 where one stands there. -/
theorem State.violation_of_core32 {e : Fault} (h : s.core32.violation = some e) : s.violation = some e := by
  rw [State.violation, h]

/-- It is that of Core64 where none stands on Core32. -/
theorem State.violation_of_core64 (h : s.core32.violation = none) : s.violation = s.core64.violation := by
  rw [State.violation, h]

end Turns

/-- Settles O8, along the branches of `State.turn`; the turn of a core that waits is `step_of_wait`. -/
theorem turnOrder : Obligations.TurnOrder := fun _ =>
  ⟨fun _ _ h => State.turn_of_cons h,
    fun h => ⟨State.turn_of_core32_acts h, State.turn_of_core64_acts h,
      fun h32 h64 => State.turn_eq_none.mpr ⟨h, h32, h64⟩⟩,
    fun _ h ha => step_of_wait h ha⟩

/-- Settles O10: it is nobody's turn (`State.turn_eq_none`), so the device rests, with or without a violation. -/
theorem waitingHoldsTheState : Obligations.WaitingHoldsTheState := by
  intro s h32 h64 hturns
  rw [step_of_none (State.turn_eq_none.mpr ⟨hturns, h32, h64⟩)]
  exact ⟨fun hv32 hv64 => State.rest_of_no_violation ((State.violation_of_core64 hv32).trans hv64),
    fun _ hv32 => State.rest_of_violation (State.violation_of_core32 hv32),
    fun _ hv32 hv64 => State.rest_of_violation ((State.violation_of_core64 hv32).trans hv64)⟩

end Sys2Proof.Machine
end

section
/-! The statements of spec/70_reset_and_hazards.md: RESET, whatever a core was doing (R150, R151), and the form of the ports right
after it (R152). -/

namespace Sys2Proof.Machine

/-- R150, R151: all of a core after RESET; `H`, `BC`, `OUTLEN` and the count of drawn values are those of a consumed instance, so
some value. -/
theorem Inst.applyReset_eq {v : Variant} (c : Inst v) :
    c.applyReset =
      { regs := c.consume.regs
        phase := .idle
        violation := none
        draws := c.consume.draws
        inProgress := none
        cmd := []
        din := []
        out := []
        rspReady := 0
        doutReady := 0
        sent := if c.violation = none then c.sent else [] } := rfl

/-- Settles O12: on the host's turn the step is its move (`step_of_hostMove`), and RESET leaves the core as `Inst.applyReset_eq`
says, whatever the core was doing. -/
theorem resetAbandonsEverything : Obligations.ResetAbandonsEverything := by
  rintro s v rest c rfl hturns
  refine ⟨(s.inst v).consume.regs, (s.inst v).consume.draws, ?_⟩
  rw [step_of_hostMove hturns, Inst.hostMove_reset, Inst.applyReset_eq]

/-- R152: a core right after reset has no command in progress and no beat to transfer. -/
theorem Inst.reset_portsInOrder (v : Variant) : (Inst.reset v).PortsInOrder := Inst.portsInOrder_of_none rfl rfl

/-- Settles O48: both cores start with empty ports (`Inst.reset_portsInOrder`). -/
theorem resetPortsInOrder : Obligations.ResetPortsInOrder := by
  intro v
  rw [State.reset_inst]
  exact Inst.reset_portsInOrder v

end Sys2Proof.Machine
end
